-- ==== Sys2Proof/Word.lean ====
section
/-! DEFINITION. The word types of the engine (00_scope.md R13, R14; 30_encoding.md R96). -/

namespace Sys2Proof

/-- A 32-bit register, bus or command word (R9, REG_BITS; R13). -/
abbrev Word := BitVec 32

/-- A byte (R18). -/
abbrev Byte := BitVec 8

/-- A byte offset in the 256-byte register window (R60, OFFSET_BITS = 8). -/
abbrev Offset := BitVec 8

/-- A transaction descriptor: BE in bits 12:9, WE in bit 8, OFF in bits 7:0 (R96). -/
abbrev Td := BitVec 13

end Sys2Proof
end

