-- ==== Sys2Proof/Config.lean ====
section
/-! DEFINITION. Parameters of the engine: the fixed ones (00_scope.md R8, R9), the open ones (R10), and the
free values `draw()` (R17). Nothing here but the free value is read by a rule of the engine; ENGINE_BASE enters
the host's addresses only (R16, R61). -/

namespace Sys2Proof.Config

/-- WORD_BITS (R8). -/
def wordBits : Nat := 32
/-- STATE_WORDS (R8). -/
def stateWords : Nat := 8
/-- BLOCK_BYTES (R8). -/
def blockBytes : Nat := 64
/-- BLOCK_WORDS (R8). -/
def blockWords : Nat := 16
/-- SCHEDULE_WORDS (R8). -/
def scheduleWords : Nat := 64
/-- ROUNDS (R8). -/
def rounds : Nat := 64
/-- LENGTH_FIELD_BITS (R8). -/
def lengthFieldBits : Nat := 64
/-- WINDOW_BYTES (R9). -/
def windowBytes : Nat := 256
/-- ACCESS_BYTES, the only legal access size (R9). -/
def accessBytes : Nat := 4
/-- VERSION, the top field of INFO (R4, R40). -/
def version : Nat := 1

/-- Whether reset is synchronous to the clock (R10, RESET_STYLE). -/
inductive ResetKind where
  | synchronous
  | asynchronous
deriving DecidableEq, Repr, Inhabited

/-- RESET_STYLE (R10), with how long reset must be held: no rule depends on it (R280). -/
structure ResetStyle where
  kind     : ResetKind
  holdTime : Nat
deriving DecidableEq, Repr, Inhabited

/-- IRQ_ROUTING (R10): how the platform connects IRQ (R261). -/
structure IrqRouting where
  number        : Nat
  priority      : Nat
  edgeTriggered : Bool
deriving DecidableEq, Repr, Inhabited

/-- The open parameters of R10, in the form that makes their constraints hold by themselves. -/
structure Platform where
  /-- ENGINE_BASE / 256 (R61: a multiple of 256). -/
  engineBlock     : Nat
  /-- COMPRESS_LATENCY − 1 (R10: at least 1). -/
  latencyBeyond1  : Nat
  /-- NUM_MASTERS − 1 (R10: at least 1). -/
  mastersBeyond1  : Nat
  /-- BUS_PROTOCOL, as far as the spec constrains it: finitely many wait states for each transaction (R76). -/
  waitStates      : Nat → Nat
  resetStyle      : ResetStyle
  irqRouting      : IrqRouting
deriving Inhabited

/-- The platform's choice of the open parameters (R10); nothing in Lean can evaluate it (log entry 9). -/
opaque platform : Platform

/-- ENGINE_BASE (R10, R61). -/
def engineBase : Nat := windowBytes * platform.engineBlock
/-- COMPRESS_LATENCY (R10, R290). -/
def compressLatency : Nat := platform.latencyBeyond1 + 1
/-- NUM_MASTERS (R10, R71). -/
def numMasters : Nat := platform.mastersBeyond1 + 1

/-- `draw()` (R17): the n-th free 32-bit value, which nothing constrains (log entry 3). -/
opaque draw : Nat → Word

end Sys2Proof.Config
end

