-- ==== Sys2Proof/Machine/Primitives.lean ====
section
/-! DEFINITION. The word functions of 40_word_primitives.md (FIPS 180-4 §3.2, §4.1.2, as the spec gives them) and the
byte order of 00_scope.md R18. -/

namespace Sys2Proof.Machine

/-- ROTR, for 1 ≤ n ≤ 31 (R120). -/
def rotr (n : Nat) (x : Word) : Word := (x >>> n) ||| (x <<< (32 - n))

/-- SHR (R121). -/
def shr (n : Nat) (x : Word) : Word := x >>> n

/-- Choice (R123). -/
def ch (x y z : Word) : Word := (x &&& y) ^^^ (~~~x &&& z)

/-- Majority (R124). -/
def maj (x y z : Word) : Word := (x &&& y) ^^^ (x &&& z) ^^^ (y &&& z)

/-- Σ0 (R125). -/
def bigSigma0 (x : Word) : Word := rotr 2 x ^^^ rotr 13 x ^^^ rotr 22 x

/-- Σ1 (R126). -/
def bigSigma1 (x : Word) : Word := rotr 6 x ^^^ rotr 11 x ^^^ rotr 25 x

/-- σ0 (R127). -/
def smallSigma0 (x : Word) : Word := rotr 7 x ^^^ rotr 18 x ^^^ shr 3 x

/-- σ1 (R128). -/
def smallSigma1 (x : Word) : Word := rotr 17 x ^^^ rotr 19 x ^^^ shr 10 x

/-- BE32: b0 is the most significant byte (R18). -/
def be32 (b0 b1 b2 b3 : Byte) : Word := b0 ++ b1 ++ b2 ++ b3

/-- bytes_BE: the four bytes of a word, most significant first (R18). -/
def bytesBE (w : Word) : List Byte :=
  [w.extractLsb' 24 8, w.extractLsb' 16 8, w.extractLsb' 8 8, w.extractLsb' 0 8]

end Sys2Proof.Machine
end

