-- ==== Sys2Proof/Syntax.lean ====
section
/-! DEFINITION. The instructions: one constructor per row of spec/opcode_table.json, the five command words
(30_encoding.md R95) and the sixteen transaction-descriptor rows (R97). -/

namespace Sys2Proof

/-- The two hash variants (00_scope.md R3). -/
inductive Variant where
  | sha256
  | sha224
deriving DecidableEq, Repr

/-- The five legal commands (R95). -/
inductive Command where
  | nop
  | init (variant : Variant)
  | compress
  | zeroize
deriving DecidableEq, Repr

/-- One constructor per row of the opcode table. `v` is the write data of a write transaction (R96: the only other
operand a host supplies); `off` of a reserved row is the offset accessed; `i` and `j` index H and M. -/
inductive Instr where
  -- command words, each a legal write of that word to CMD (R90)
  | nop
  | initSha256
  | initSha224
  | compress
  | zeroize
  -- transactions (R97)
  | rdCmd
  | wrCmd (v : Word)
  | rdStatus
  | wrStatus (v : Word)
  | rdCtrl
  | wrCtrl (v : Word)
  | rdInfo
  | wrInfo (v : Word)
  | rdRsvdLo (off : Offset)
  | wrRsvdLo (off : Offset) (v : Word)
  | rdH (i : Fin 8)
  | wrH (i : Fin 8) (v : Word)
  | rdM (j : Fin 16)
  | wrM (j : Fin 16) (v : Word)
  | rdRsvdHi (off : Offset)
  | wrRsvdHi (off : Offset) (v : Word)
deriving DecidableEq, Repr

/-- The instruction that a command is. -/
def Command.instr : Command → Instr
  | .nop => .nop
  | .init .sha256 => .initSha256
  | .init .sha224 => .initSha224
  | .compress => .compress
  | .zeroize => .zeroize

end Sys2Proof
end

