-- ==== Sys2Proof/Machine/Compression.lean ====
section
/-! DEFINITION. The compression function (41_compression.md R150 to R158) and the initial hash values
(42_control_commands.md R193, R194). -/

namespace Sys2Proof.Machine

/-- Round constants K[0..31] (R150). -/
def roundConstantsLow : List Word :=
  [0x428a2f98#32, 0x71374491#32, 0xb5c0fbcf#32, 0xe9b5dba5#32, 0x3956c25b#32, 0x59f111f1#32, 0x923f82a4#32, 0xab1c5ed5#32] ++
  [0xd807aa98#32, 0x12835b01#32, 0x243185be#32, 0x550c7dc3#32, 0x72be5d74#32, 0x80deb1fe#32, 0x9bdc06a7#32, 0xc19bf174#32] ++
  [0xe49b69c1#32, 0xefbe4786#32, 0x0fc19dc6#32, 0x240ca1cc#32, 0x2de92c6f#32, 0x4a7484aa#32, 0x5cb0a9dc#32, 0x76f988da#32] ++
  [0x983e5152#32, 0xa831c66d#32, 0xb00327c8#32, 0xbf597fc7#32, 0xc6e00bf3#32, 0xd5a79147#32, 0x06ca6351#32, 0x14292967#32]

/-- Round constants K[32..63] (R150). -/
def roundConstantsHigh : List Word :=
  [0x27b70a85#32, 0x2e1b2138#32, 0x4d2c6dfc#32, 0x53380d13#32, 0x650a7354#32, 0x766a0abb#32, 0x81c2c92e#32, 0x92722c85#32] ++
  [0xa2bfe8a1#32, 0xa81a664b#32, 0xc24b8b70#32, 0xc76c51a3#32, 0xd192e819#32, 0xd6990624#32, 0xf40e3585#32, 0x106aa070#32] ++
  [0x19a4c116#32, 0x1e376c08#32, 0x2748774c#32, 0x34b0bcb5#32, 0x391c0cb3#32, 0x4ed8aa4a#32, 0x5b9cca4f#32, 0x682e6ff3#32] ++
  [0x748f82ee#32, 0x78a5636f#32, 0x84c87814#32, 0x8cc70208#32, 0x90befffa#32, 0xa4506ceb#32, 0xbef9a3f7#32, 0xc67178f2#32]

/-- The round constants K[0..63] (R150). -/
def roundConstants : List Word := roundConstantsLow ++ roundConstantsHigh

/-- IV256 (R193). -/
def iv256 : Vector Word 8 :=
  #v[0x6A09E667#32, 0xBB67AE85#32, 0x3C6EF372#32, 0xA54FF53A#32, 0x510E527F#32, 0x9B05688C#32, 0x1F83D9AB#32, 0x5BE0CD19#32]

/-- IV224 (R194). -/
def iv224 : Vector Word 8 :=
  #v[0xC1059ED8#32, 0x367CD507#32, 0x3070DD17#32, 0xF70E5939#32, 0xFFC00B31#32, 0x68581511#32, 0x64F98FA7#32, 0xBEFA4FA4#32]

/-- The initial hash value of a variant (R157: the variants differ in this and in the digest length). -/
def initialHash : Variant → Vector Word 8
  | .sha256 => iv256
  | .sha224 => iv224

/-- The next schedule word, with t = the number of words there are (R152, t ≥ 16). -/
def scheduleNext (w : List Word) : Word :=
  let t := w.length
  smallSigma1 (w.getD (t - 2) 0) + w.getD (t - 7) 0 + smallSigma0 (w.getD (t - 15) 0) + w.getD (t - 16) 0

/-- Appends n schedule words (R152). -/
def scheduleExtend : Nat → List Word → List Word
  | 0, w => w
  | n + 1, w => scheduleExtend n (w ++ [scheduleNext w])

/-- The message schedule W[0..63] (R152). -/
def schedule (m : Vector Word 16) : List Word :=
  scheduleExtend (Config.scheduleWords - Config.blockWords) m.toList

/-- The working variables (R153). -/
structure Working where
  a : Word
  b : Word
  c : Word
  d : Word
  e : Word
  f : Word
  g : Word
  h : Word
deriving DecidableEq, Repr

/-- The working variables before round 0 (R153). -/
def workingOf (h : Vector Word 8) : Working := ⟨h[0], h[1], h[2], h[3], h[4], h[5], h[6], h[7]⟩

/-- T1 of a round with constant k and schedule word w (R154). -/
def roundT1 (v : Working) (k w : Word) : Word := v.h + bigSigma1 v.e + ch v.e v.f v.g + k + w

/-- T2 of a round (R154). -/
def roundT2 (v : Working) : Word := bigSigma0 v.a + maj v.a v.b v.c

/-- One round with constant k and schedule word w (R154). -/
def compressionRound (v : Working) (kw : Word × Word) : Working :=
  let t1 := roundT1 v kw.1 kw.2
  ⟨t1 + roundT2 v, v.a, v.b, v.c, v.d + t1, v.e, v.f, v.g⟩

/-- The 64 rounds, t = 0 to 63 (R154, R158). -/
def compressionRounds (v : Working) (w : List Word) : Working :=
  (roundConstants.zip w).foldl compressionRound v

/-- Feed-forward (R155). -/
def feedForward (h : Vector Word 8) (v : Working) : Vector Word 8 :=
  #v[h[0] + v.a, h[1] + v.b, h[2] + v.c, h[3] + v.d, h[4] + v.e, h[5] + v.f, h[6] + v.g, h[7] + v.h]

/-- The compression function (R156). -/
def compress (h : Vector Word 8) (m : Vector Word 16) : Vector Word 8 :=
  feedForward h (compressionRounds (workingOf h) (schedule m))

end Sys2Proof.Machine
end

