-- ==== Sys2Proof/WellFormed.lean ====
section
/-! DEFINITION. Which instruction terms an encoding exists for: a reserved-offset row names an offset of its own
range (20_memory.md R62, R65; 30_encoding.md R97). The indices of H and M are in range by their types. -/

namespace Sys2Proof

/-- OFF pattern 0b0001xx00: the reserved offsets 0x10 to 0x1C (R97). -/
def Offset.reservedLo (off : Offset) : Bool := off &&& 0xF3#8 == 0x10#8

/-- OFF pattern 0b1xxxxx00: the reserved offsets 0x80 to 0xFC (R97). -/
def Offset.reservedHi (off : Offset) : Bool := off &&& 0x83#8 == 0x80#8

/-- The check of an instruction term. -/
def Instr.wellFormed : Instr → Bool
  | .nop => true
  | .initSha256 => true
  | .initSha224 => true
  | .compress => true
  | .zeroize => true
  | .rdCmd => true
  | .wrCmd _ => true
  | .rdStatus => true
  | .wrStatus _ => true
  | .rdCtrl => true
  | .wrCtrl _ => true
  | .rdInfo => true
  | .wrInfo _ => true
  | .rdRsvdLo off => Offset.reservedLo off
  | .wrRsvdLo off _ => Offset.reservedLo off
  | .rdH _ => true
  | .wrH _ _ => true
  | .rdM _ => true
  | .wrM _ _ => true
  | .rdRsvdHi off => Offset.reservedHi off
  | .wrRsvdHi off _ => Offset.reservedHi off

end Sys2Proof
end

