-- ==== Sys2Proof/Decode.lean ====
section
/-! DEFINITION. The decoder and the encoder of both encoded spaces (30_encoding.md): command words (R90 to R95) and
transaction descriptors (R96, R97). Both are total; a word or descriptor that no row names is rejected by a reason.
The engine stores no instructions (10_state.md R46), so there are no instruction bytes: a command is one 32-bit word,
a transaction is its descriptor and its write data. -/

namespace Sys2Proof

/-- Why an encoding is no instruction. The first four are the cases of R94, the last three those of R64. -/
inductive DecodeError where
  /-- v[31:6] ≠ 0 (R93). -/
  | reservedBits
  /-- OP in 0x4 to 0xF (R91). -/
  | reservedOperation
  /-- VAR ≠ 0 with an OP other than INIT (R92). -/
  | variantOutsideInit
  /-- INIT with VAR 0b10 or 0b11 (R92). -/
  | reservedVariant
  /-- OFF[1:0] ≠ 0b00 (R63). -/
  | misaligned
  /-- BE ≠ 0b1111 (R63). -/
  | partialWord
  /-- An aligned whole-word access that no row of R97 matches; R97 says there is none. -/
  | noRow
deriving DecidableEq, Repr

/-- An encoded instruction: a command word, or a transaction descriptor with its write data. -/
inductive Encoded where
  | command (word : Word)
  | transaction (td : Td) (wdata : Word)
deriving DecidableEq, Repr

/-! ## Command words -/

/-- OP, bits 3:0 (R90). -/
def commandOp (v : Word) : Nat := (v.extractLsb' 0 4).toNat
/-- VAR, bits 5:4 (R90). -/
def commandVar (v : Word) : Nat := (v.extractLsb' 4 2).toNat
/-- RSV, bits 31:6 (R90). -/
def commandRsv (v : Word) : Nat := (v.extractLsb' 6 26).toNat

/-- Decodes a command word field by field (R91 to R94). -/
def decodeCommand (v : Word) : Except DecodeError Command :=
  if commandRsv v ≠ 0 then .error .reservedBits
  else if commandOp v = 1 then
    match commandVar v with
    | 0 => .ok (.init .sha256)
    | 1 => .ok (.init .sha224)
    | _ => .error .reservedVariant
  else if 4 ≤ commandOp v then .error .reservedOperation
  else if commandVar v ≠ 0 then .error .variantOutsideInit
  else
    match commandOp v with
    | 0 => .ok .nop
    | 2 => .ok .compress
    | _ => .ok .zeroize

/-- The word of a command (R95). -/
def encodeCommand : Command → Word
  | .nop => 0x00000000#32
  | .init .sha256 => 0x00000001#32
  | .init .sha224 => 0x00000011#32
  | .compress => 0x00000002#32
  | .zeroize => 0x00000003#32

/-! ## Transaction descriptors -/

/-- BE, bits 12:9 (R96). -/
def tdBe (td : Td) : BitVec 4 := td.extractLsb' 9 4
/-- WE, bit 8 (R96): 1 is a write. -/
def tdWe (td : Td) : Bool := td.getLsbD 8
/-- OFF, bits 7:0 (R96). -/
def tdOff (td : Td) : Offset := td.extractLsb' 0 8

/-- The descriptor {BE, WE, OFF} (R96). -/
def makeTd (be : BitVec 4) (we : Bool) (off : Offset) : Td := be ++ BitVec.ofBool we ++ off

/-- The legal access: aligned, all four byte enables (20_memory.md R63). -/
def tdLegal (td : Td) : Bool := tdBe td == 0b1111#4 && (tdOff td).extractLsb' 0 2 == 0b00#2

/-- The H index of an offset, OFF[4:2] (R96). -/
def indexOfH (off : Offset) : Fin 8 := (off.extractLsb' 2 3).toFin
/-- The M index of an offset, OFF[5:2] (R96). -/
def indexOfM (off : Offset) : Fin 16 := (off.extractLsb' 2 4).toFin
/-- The offset of H[i], 0x20 + 4·i (20_memory.md R62). -/
def offsetOfH (i : Fin 8) : Offset := BitVec.ofNat 8 (0x20 + 4 * i.val)
/-- The offset of M[j], 0x40 + 4·j (R62). -/
def offsetOfM (j : Fin 16) : Offset := BitVec.ofNat 8 (0x40 + 4 * j.val)

/-- A row of the decode table of R97, with the instruction it makes of the offset and the write data. -/
structure TdRow where
  value : Td
  mask  : Td
  make  : Offset → Word → Instr

/-- A TD matches a row when (TD & mask) = match (R97). -/
def TdRow.matches (r : TdRow) (td : Td) : Bool := td &&& r.mask == r.value

/-- The rows of the system registers (R97). -/
def systemRows : List TdRow :=
  [⟨0x1E00#13, 0x1FFF#13, fun _ _ => .rdCmd⟩,
   ⟨0x1F00#13, 0x1FFF#13, fun _ v => .wrCmd v⟩,
   ⟨0x1E04#13, 0x1FFF#13, fun _ _ => .rdStatus⟩,
   ⟨0x1F04#13, 0x1FFF#13, fun _ v => .wrStatus v⟩,
   ⟨0x1E08#13, 0x1FFF#13, fun _ _ => .rdCtrl⟩,
   ⟨0x1F08#13, 0x1FFF#13, fun _ v => .wrCtrl v⟩,
   ⟨0x1E0C#13, 0x1FFF#13, fun _ _ => .rdInfo⟩,
   ⟨0x1F0C#13, 0x1FFF#13, fun _ v => .wrInfo v⟩]

/-- The rows of the data registers and of the reserved offsets (R97). -/
def dataRows : List TdRow :=
  [⟨0x1E10#13, 0x1FF3#13, fun off _ => .rdRsvdLo off⟩,
   ⟨0x1F10#13, 0x1FF3#13, fun off v => .wrRsvdLo off v⟩,
   ⟨0x1E20#13, 0x1FE3#13, fun off _ => .rdH (indexOfH off)⟩,
   ⟨0x1F20#13, 0x1FE3#13, fun off v => .wrH (indexOfH off) v⟩,
   ⟨0x1E40#13, 0x1FC3#13, fun off _ => .rdM (indexOfM off)⟩,
   ⟨0x1F40#13, 0x1FC3#13, fun off v => .wrM (indexOfM off) v⟩,
   ⟨0x1E80#13, 0x1F83#13, fun off _ => .rdRsvdHi off⟩,
   ⟨0x1F80#13, 0x1F83#13, fun off v => .wrRsvdHi off v⟩]

/-- The decode table of R97. -/
def tdRows : List TdRow := systemRows ++ dataRows

/-- Decodes a transaction by the table of R97. -/
def decodeTransaction (td : Td) (wdata : Word) : Except DecodeError Instr :=
  match tdRows.find? (·.matches td) with
  | some r => .ok (r.make (tdOff td) wdata)
  | none =>
    if (tdOff td).extractLsb' 0 2 ≠ 0b00#2 then .error .misaligned
    else if tdBe td ≠ 0b1111#4 then .error .partialWord
    else .error .noRow

/-- Decodes an encoded instruction of either space. -/
def decode : Encoded → Except DecodeError Instr
  | .command v => (decodeCommand v).map Command.instr
  | .transaction td wdata => decodeTransaction td wdata

/-! ## The encoder -/

/-- A legal read of an offset. -/
def readTd (off : Offset) : Td := makeTd 0b1111#4 false off
/-- A legal write of an offset. -/
def writeTd (off : Offset) : Td := makeTd 0b1111#4 true off

/-- The encoding of an instruction (R95, R97). A read's write data is not part of it and is written as 0. -/
def encode : Instr → Encoded
  | .nop => .command (encodeCommand .nop)
  | .initSha256 => .command (encodeCommand (.init .sha256))
  | .initSha224 => .command (encodeCommand (.init .sha224))
  | .compress => .command (encodeCommand .compress)
  | .zeroize => .command (encodeCommand .zeroize)
  | .rdCmd => .transaction (readTd 0x00#8) 0
  | .wrCmd v => .transaction (writeTd 0x00#8) v
  | .rdStatus => .transaction (readTd 0x04#8) 0
  | .wrStatus v => .transaction (writeTd 0x04#8) v
  | .rdCtrl => .transaction (readTd 0x08#8) 0
  | .wrCtrl v => .transaction (writeTd 0x08#8) v
  | .rdInfo => .transaction (readTd 0x0C#8) 0
  | .wrInfo v => .transaction (writeTd 0x0C#8) v
  | .rdRsvdLo off => .transaction (readTd off) 0
  | .wrRsvdLo off v => .transaction (writeTd off) v
  | .rdH i => .transaction (readTd (offsetOfH i)) 0
  | .wrH i v => .transaction (writeTd (offsetOfH i)) v
  | .rdM j => .transaction (readTd (offsetOfM j)) 0
  | .wrM j v => .transaction (writeTd (offsetOfM j)) v
  | .rdRsvdHi off => .transaction (readTd off) 0
  | .wrRsvdHi off v => .transaction (writeTd off) v

/-- How an encoded instruction reaches the engine: a command is a legal write of its word to CMD (R90; log
entry 13). -/
def Encoded.onBus : Encoded → Td × Word
  | .command v => (writeTd 0x00#8, v)
  | .transaction td wdata => (td, wdata)

/-! ## The opcode table's numbering -/

/-- The encoded instruction that opcode_table.json's numbering lays out as bits (log entry 12): a 32-bit row is a command
word; any other row is a TD in bits 12:0 with bits 15:13 zero and the write data from bit 16 on. -/
def tableEncoded (nbits w : Nat) : Option Encoded :=
  if nbits = 32 then
    if w < 2 ^ 32 then some (.command (BitVec.ofNat 32 w)) else none
  else if w % 2 ^ 16 < 2 ^ 13 ∧ w < 2 ^ 48 then
    some (.transaction (BitVec.ofNat 13 w) (BitVec.ofNat 32 (w >>> 16)))
  else none

/-- The instruction the decoder reads from the bits w of a row of nbits bits. -/
def decodeTableWord (nbits w : Nat) : Option Instr :=
  match tableEncoded nbits w with
  | some e =>
    match decode e with
    | .ok i => some i
    | .error _ => none
  | none => none

end Sys2Proof
end

