-- ==== Sys2Proof/Machine/State.lean ====
section
/-! DEFINITION. The state of the engine (10_state.md R30), its port (20_memory.md R76) and the outside events still
to come (00_scope.md R12), with the reasons a step can stop and the state after reset (R47). -/

namespace Sys2Proof.Machine

/-- STATUS: one Bool per field of 10_state.md R38. Bits 31:5 read as zero and hold no state (log entry 18). -/
structure Status where
  busy    : Bool
  done    : Bool
  errIll  : Bool
  errBusy : Bool
  errAcc  : Bool
deriving DecidableEq, Repr

/-- CTRL: one Bool per field of 10_state.md R39. Bits 31:2 read as zero and hold no state (log entry 18). -/
structure Ctrl where
  doneIe : Bool
  errIe  : Bool
deriving DecidableEq, Repr

/-- What the port shows after a step (20_memory.md R76). -/
inductive Response where
  /-- No transaction completed in the step: ack is low. -/
  | quiet
  /-- A write completed: ack is high, rdata carries nothing. -/
  | ack
  /-- A read completed with this rdata. -/
  | data (rdata : Word)
deriving DecidableEq, Repr

/-- A bus transaction: its descriptor (30_encoding.md R96) and its write data (not used by a read). -/
structure Transaction where
  td    : Td
  wdata : Word
deriving DecidableEq, Repr

/-- The steps of the three agents (00_scope.md R12). -/
inductive Event where
  /-- The host: one whole bus transaction (R68). -/
  | bus (t : Transaction)
  /-- The host: an access wider than 32 bits (20_memory.md R64), for which the 13 bits of a TD have no form
  (log entry 11). -/
  | wide (write : Bool)
  /-- A turn of the engine agent: it completes a COMPRESS in flight (41_compression.md R175), if there is one. -/
  | engine
  /-- Reset (70_reset_and_hazards.md R280), with the transaction that was in progress, if any (R281). -/
  | reset (inProgress : Option Transaction)
deriving DecidableEq, Repr

/-- The three error conditions (60_exceptions.md R251 to R253). -/
inductive ErrorKind where
  | illegal
  | busy
  | access
deriving DecidableEq, Repr

/-- The machine. `h`, `m`, `status` and `ctrl` are the architectural state of R30; `response` is the port's output;
`inputs` and `draws` are the model's own (log entries 1 and 3). -/
structure State where
  /-- The hash state H[0..7] (R31). -/
  h        : Vector Word 8
  /-- The message block M[0..15] (R34). -/
  m        : Vector Word 16
  status   : Status
  ctrl     : Ctrl
  response : Response
  /-- The events still to come, the next one first. -/
  inputs   : List Event
  /-- How many free values have been drawn (R17). -/
  draws    : Nat
deriving DecidableEq, Repr

/-- No step of this engine ends in a fault: an error sets a STATUS bit and the engine goes on (60_exceptions.md R250).
The type has no constructor, which says so (log entry 7). -/
inductive Fault where
deriving DecidableEq, Repr

/-- Why a step has no meaning. -/
inductive Refusal where
  /-- Raised by an arm of exec whose instruction is not modelled. No arm is left that raises it. Safe: it stops the run. -/
  | notModelled (mnemonic : String)
deriving DecidableEq, Repr

/-- The state after reset (R47), with nothing on the port and no event pending (log entries 3, 4 and 10). -/
def State.reset : State where
  h        := Vector.replicate 8 0
  m        := Vector.replicate 16 0
  status   := ⟨false, false, false, false, false⟩
  ctrl     := ⟨false, false⟩
  response := .quiet
  inputs   := []
  draws    := 0

end Sys2Proof.Machine
end

