-- ==== Sys2Proof/Machine/Flags.lean ====
section
/-! DEFINITION. Every computation on the STATUS and CTRL bits (10_state.md R38, R39) and the interrupt output
(60_exceptions.md R260). -/

namespace Sys2Proof.Machine

/-- STATUS as a read shows it: {27'b0, ERR_ACC, ERR_BUSY, ERR_ILL, DONE, BUSY} (R38). -/
def Status.word (s : Status) : Word :=
  0#27 ++ BitVec.ofBool s.errAcc ++ BitVec.ofBool s.errBusy ++ BitVec.ofBool s.errIll ++ BitVec.ofBool s.done ++
    BitVec.ofBool s.busy

/-- A write of v to STATUS: each W1C bit whose bit in v is 1 is cleared (R38). -/
def Status.clear (s : Status) (v : Word) : Status where
  busy    := s.busy
  done    := s.done && !v.getLsbD 1
  errIll  := s.errIll && !v.getLsbD 2
  errBusy := s.errBusy && !v.getLsbD 3
  errAcc  := s.errAcc && !v.getLsbD 4

/-- STATUS with an error's bit set (60_exceptions.md R251 to R253). -/
def Status.withError (s : Status) : ErrorKind → Status
  | .illegal => { s with errIll := true }
  | .busy => { s with errBusy := true }
  | .access => { s with errAcc := true }

/-- STATUS at the acceptance of COMPRESS (41_compression.md R170). -/
def Status.accepted (s : Status) : Status := { s with busy := true, done := false }

/-- STATUS at the completion of COMPRESS (41_compression.md R175). -/
def Status.completed (s : Status) : Status := { s with busy := false, done := true }

/-- Any error bit (R260). -/
def Status.anyError (s : Status) : Bool := s.errIll || s.errBusy || s.errAcc

/-- CTRL as a read shows it: {30'b0, ERR_IE, DONE_IE} (R39). -/
def Ctrl.word (c : Ctrl) : Word := 0#30 ++ BitVec.ofBool c.errIe ++ BitVec.ofBool c.doneIe

/-- What a write of v makes of CTRL: bits 1:0 are kept (R39). -/
def ctrlOfWord (v : Word) : Ctrl := ⟨v.getLsbD 0, v.getLsbD 1⟩

/-- The interrupt output, a function of the state (R260). -/
def State.irq (s : State) : Bool := (s.status.done && s.ctrl.doneIe) || (s.status.anyError && s.ctrl.errIe)

end Sys2Proof.Machine
end

