-- ==== Sys2Proof/Machine/Operands.lean ====
section
/-! DEFINITION. The operands of the transactions: the registers of the window (20_memory.md R62). There are no other
operand forms (30_encoding.md R95, R96). -/

namespace Sys2Proof.Machine

/-- H[i] (10_state.md R31). -/
def State.readH (s : State) (i : Fin 8) : Word := s.h[i]

/-- The state with H[i] = v (10_state.md R33). -/
def State.writeH (s : State) (i : Fin 8) (v : Word) : State := { s with h := s.h.set i v }

/-- M[j] (10_state.md R34). -/
def State.readM (s : State) (j : Fin 16) : Word := s.m[j]

/-- The state with M[j] = v (10_state.md R35). -/
def State.writeM (s : State) (j : Fin 16) (v : Word) : State := { s with m := s.m.set j v }

/-- INFO, a constant (10_state.md R40). -/
def infoWord : Word := 0x01104020#32

/-- The register value at an offset of the window, the one a legal read returns while the engine is idle
(20_memory.md R62; CMD and the reserved offsets read as zero, R37 and R65). -/
def State.window (s : State) (off : Offset) : Word :=
  if off = 0x04#8 then s.status.word
  else if off = 0x08#8 then s.ctrl.word
  else if off = 0x0C#8 then infoWord
  else if off &&& 0xE3#8 = 0x20#8 then s.readH (indexOfH off)
  else if off &&& 0xC3#8 = 0x40#8 then s.readM (indexOfM off)
  else 0

end Sys2Proof.Machine
end

