-- ==== Sys2Proof/Machine/Ops.lean ====
section
/-! DEFINITION. The operations the instructions share: ending a transaction, raising an error and acknowledging it,
refusing a write while busy, the free value, completion, reset. -/

namespace Sys2Proof.Machine

/-- A read transaction completes with this value (20_memory.md R76). -/
def State.returns (s : State) (v : Word) : State := { s with response := .data v }

/-- A write transaction completes (R76). -/
def State.acked (s : State) : State := { s with response := .ack }

/-- TAKING AN ERROR: `raise ERR_X` (00_scope.md R17). The STATUS bit is set, every other effect of the transaction is
suppressed, and a read returns 0. Nothing is saved and no control is transferred (60_exceptions.md R250, R262). -/
def State.raise (s : State) (e : ErrorKind) (write : Bool) : State :=
  { s with status := s.status.withError e, response := if write then .ack else .data 0 }

/-- ACKNOWLEDGING, the engine's only "return": a write of v to STATUS clears W1C bits and restores nothing else (R258). -/
def State.acknowledge (s : State) (v : Word) : State := { s with status := s.status.clear v }

/-- A write to CMD, H or M: refused with ERR_BUSY while a compression is in flight (60_exceptions.md R252), else its
effect takes place and the write completes. -/
def State.whenIdle (s : State) (effect : State → State) : State :=
  if s.status.busy then s.raise .busy true else (effect s).acked

/-- A read that returns `draw()`: the next free value (00_scope.md R17; log entry 3). -/
def State.returnsDraw (s : State) : State := { s.returns (Config.draw s.draws) with draws := s.draws + 1 }

/-- Completion of the COMPRESS in flight (41_compression.md R175). -/
def State.complete (s : State) : State := { s with h := compress s.h s.m, status := s.status.completed }

/-- A turn of the engine agent: completion where a COMPRESS is in flight, else nothing. No transaction completes in it. -/
def State.engineTurn (s : State) : State :=
  { (if s.status.busy then s.complete else s) with response := .quiet }

/-- Reset (70_reset_and_hazards.md R280): every piece of the engine's state takes its reset value. The events to come and
the count of free values are not the engine's and stay. -/
def State.resetEngine (s : State) : State := { State.reset with inputs := s.inputs, draws := s.draws }

/-- Reset with a transaction in progress (R281): a write is lost, a read returns an unspecified value. -/
def State.resetDuring (s : State) : Option Transaction → State
  | none => s.resetEngine
  | some t => if tdWe t.td then s.resetEngine.acked else s.resetEngine.returnsDraw

end Sys2Proof.Machine
end

