-- ==== Sys2Proof/Machine/Data.lean ====
section
/-! DEFINITION. Transactions on the data registers H and M (10_state.md R32, R33, R35). -/

namespace Sys2Proof.Machine

/-- RD_H: H[i] while idle, a free value while busy (R32). -/
def execRdH (i : Fin 8) (s : State) : Host.Outcome State Fault Refusal :=
  .next (if s.status.busy then s.returnsDraw else s.returns (s.readH i))

/-- WR_H, refused while busy (R33). -/
def execWrH (i : Fin 8) (v : Word) (s : State) : Host.Outcome State Fault Refusal :=
  .next (s.whenIdle fun t => t.writeH i v)

/-- RD_M, busy or not (R35). -/
def execRdM (j : Fin 16) (s : State) : Host.Outcome State Fault Refusal := .next (s.returns (s.readM j))

/-- WR_M, refused while busy (R35). -/
def execWrM (j : Fin 16) (v : Word) (s : State) : Host.Outcome State Fault Refusal :=
  .next (s.whenIdle fun t => t.writeM j v)

end Sys2Proof.Machine
end

