-- ==== Sys2Proof/Machine/Commands.lean ====
section
/-! DEFINITION. The five commands (41_compression.md R170; 42_control_commands.md R190 to R195). Each is a legal write of
its word to CMD (30_encoding.md R90); while busy it raises ERR_BUSY and nothing else (R252). -/

namespace Sys2Proof.Machine

/-- NOP (R190). -/
def execNop (s : State) : Host.Outcome State Fault Refusal := .next (s.whenIdle fun t => t)

/-- INIT.SHA256 (R191). -/
def execInitSha256 (s : State) : Host.Outcome State Fault Refusal := .next (s.whenIdle fun t => { t with h := iv256 })

/-- INIT.SHA224 (R192). -/
def execInitSha224 (s : State) : Host.Outcome State Fault Refusal := .next (s.whenIdle fun t => { t with h := iv224 })

/-- COMPRESS, its acceptance (R170). Its completion is the engine's own step, `State.complete` (R175). -/
def execCompress (s : State) : Host.Outcome State Fault Refusal :=
  .next (s.whenIdle fun t => { t with status := t.status.accepted })

/-- ZEROIZE (R195). -/
def execZeroize (s : State) : Host.Outcome State Fault Refusal :=
  .next (s.whenIdle fun t => { t with h := Vector.replicate 8 0, m := Vector.replicate 16 0 })

/-- The meaning of a decoded command. -/
def execCommand : Command → State → Host.Outcome State Fault Refusal
  | .nop, s => execNop s
  | .init .sha256, s => execInitSha256 s
  | .init .sha224, s => execInitSha224 s
  | .compress, s => execCompress s
  | .zeroize, s => execZeroize s

end Sys2Proof.Machine
end

