-- ==== Sys2Proof/Machine/Registers.lean ====
section
/-! DEFINITION. Transactions on CMD, STATUS, CTRL, INFO and the reserved offsets (10_state.md R37 to R40;
20_memory.md R65; 30_encoding.md R102). -/

namespace Sys2Proof.Machine

/-- RD_CMD returns 0 (R37). -/
def execRdCmd (s : State) : Host.Outcome State Fault Refusal := .next (s.returns 0)

/-- WR_CMD decodes the word as a command; the busy test comes first (R102). -/
def execWrCmd (v : Word) (s : State) : Host.Outcome State Fault Refusal :=
  if s.status.busy then .next (s.raise .busy true)
  else
    match decodeCommand v with
    | .ok c => execCommand c s
    | .error _ => .next (s.raise .illegal true)

/-- RD_STATUS (R38). -/
def execRdStatus (s : State) : Host.Outcome State Fault Refusal := .next (s.returns s.status.word)

/-- WR_STATUS: write 1 to clear, never refused (R38). -/
def execWrStatus (v : Word) (s : State) : Host.Outcome State Fault Refusal := .next (s.acknowledge v).acked

/-- RD_CTRL (R39). -/
def execRdCtrl (s : State) : Host.Outcome State Fault Refusal := .next (s.returns s.ctrl.word)

/-- WR_CTRL, never refused (R39). -/
def execWrCtrl (v : Word) (s : State) : Host.Outcome State Fault Refusal :=
  .next { s with ctrl := ctrlOfWord v }.acked

/-- RD_INFO (R40). -/
def execRdInfo (s : State) : Host.Outcome State Fault Refusal := .next (s.returns infoWord)

/-- WR_INFO is ignored (R40). -/
def execWrInfo (_v : Word) (s : State) : Host.Outcome State Fault Refusal := .next s.acked

/-- RD_RSVD_LO returns 0 (R65). -/
def execRdRsvdLo (_off : Offset) (s : State) : Host.Outcome State Fault Refusal := .next (s.returns 0)

/-- WR_RSVD_LO is ignored (R65). -/
def execWrRsvdLo (_off : Offset) (_v : Word) (s : State) : Host.Outcome State Fault Refusal := .next s.acked

/-- RD_RSVD_HI returns 0 (R65). -/
def execRdRsvdHi (_off : Offset) (s : State) : Host.Outcome State Fault Refusal := .next (s.returns 0)

/-- WR_RSVD_HI is ignored (R65). -/
def execWrRsvdHi (_off : Offset) (_v : Word) (s : State) : Host.Outcome State Fault Refusal := .next s.acked

end Sys2Proof.Machine
end

