-- ==== Sys2Proof/Machine/Dispatch.lean ====
section
/-! DEFINITION. One arm per constructor of Instr, each one call of the instruction's meaning. -/

namespace Sys2Proof.Machine

def exec (i : Instr) (s : State) : Host.Outcome State Fault Refusal :=
  match i with
  | .nop => Sys2Proof.Machine.execNop s
  | .initSha256 => Sys2Proof.Machine.execInitSha256 s
  | .initSha224 => Sys2Proof.Machine.execInitSha224 s
  | .compress => Sys2Proof.Machine.execCompress s
  | .zeroize => Sys2Proof.Machine.execZeroize s
  | .rdCmd => Sys2Proof.Machine.execRdCmd s
  | .wrCmd v => Sys2Proof.Machine.execWrCmd v s
  | .rdStatus => Sys2Proof.Machine.execRdStatus s
  | .wrStatus v => Sys2Proof.Machine.execWrStatus v s
  | .rdCtrl => Sys2Proof.Machine.execRdCtrl s
  | .wrCtrl v => Sys2Proof.Machine.execWrCtrl v s
  | .rdInfo => Sys2Proof.Machine.execRdInfo s
  | .wrInfo v => Sys2Proof.Machine.execWrInfo v s
  | .rdRsvdLo off => Sys2Proof.Machine.execRdRsvdLo off s
  | .wrRsvdLo off v => Sys2Proof.Machine.execWrRsvdLo off v s
  | .rdH n => Sys2Proof.Machine.execRdH n s
  | .wrH n v => Sys2Proof.Machine.execWrH n v s
  | .rdM j => Sys2Proof.Machine.execRdM j s
  | .wrM j v => Sys2Proof.Machine.execWrM j v s
  | .rdRsvdHi off => Sys2Proof.Machine.execRdRsvdHi off s
  | .wrRsvdHi off v => Sys2Proof.Machine.execWrRsvdHi off v s

end Sys2Proof.Machine
end

