-- ==== Sys2Proof/Machine/Events.lean ====
section
/-! DEFINITION. Performing one event (00_scope.md R12) and fetching the next one (log entries 1, 16 and 17). -/

namespace Sys2Proof.Machine

/-- A bus transaction: decoded by the table of 30_encoding.md R97 and executed; where no row matches, an access error
(20_memory.md R64, 60_exceptions.md R253). -/
def transact (t : Transaction) (s : State) : Host.Outcome State Fault Refusal :=
  match decodeTransaction t.td t.wdata with
  | .ok i => exec i s
  | .error _ => .next (s.raise .access (tdWe t.td))

/-- One step of the agent the event names. -/
def takeEvent (e : Event) (s : State) : Host.Outcome State Fault Refusal :=
  match e with
  | .bus t => transact t s
  | .wide write => .next (s.raise .access write)
  | .engine => .next s.engineTurn
  | .reset inProgress => .next (s.resetDuring inProgress)

/-- The next event and the state without it. Where no outside event is pending, only the engine agent can step, and it
does (weak fairness, 70_reset_and_hazards.md R290; log entry 2). -/
def fetch (s : State) : Event × State :=
  match s.inputs with
  | [] => (.engine, s)
  | e :: rest => (e, { s with inputs := rest })

/-- The transaction that carries an encoded instruction to the engine (30_encoding.md R90, R96). -/
def Transaction.ofEncoded (e : Encoded) : Transaction := ⟨e.onBus.1, e.onBus.2⟩

/-- The events with an encoded instruction put before those already to come. -/
def presentFirst (e : Encoded) (inputs : List Event) : List Event := .bus (Transaction.ofEncoded e) :: inputs

end Sys2Proof.Machine
end

