-- ==== Sys2Proof/Machine/Step.lean ====
section
/-! DEFINITION. One step of the machine: the next event is taken. -/

namespace Sys2Proof.Machine

/-- One step: fetch the next event and perform it. -/
def step (s : State) : Host.Outcome State Fault Refusal := takeEvent (fetch s).1 (fetch s).2

/-- The state whose next step runs the instruction that the opcode table's bits w of nbits bits name (log entries 10
and 12). -/
def State.withFetchWord (s : State) (nbits w : Nat) : State :=
  match tableEncoded nbits w with
  | some e => { s with inputs := presentFirst e s.inputs }
  | none => s

end Sys2Proof.Machine
end

