-- ==== Sys2Proof/Machine/Bus.lean ====
section
/-! DEFINITION. The host's bus primitives `MemRead` and `MemWrite` (00_scope.md R16) and the platform's address decoding
(20_memory.md R61). -/

namespace Sys2Proof.Machine

/-- The interconnect delivers only the accesses inside the window (R61). -/
def inWindow (addr : Nat) : Bool := Config.engineBase ≤ addr && addr < Config.engineBase + Config.windowBytes

/-- The engine decodes only addr[7:0] (R61). -/
def windowOffset (addr : Nat) : Offset := BitVec.ofNat 8 addr

/-- The byte enables of an access of n ≤ 4 bytes. All four for n = 4 (R63), whatever the alignment; a narrower access
enables the lanes of its own bytes (R66; log entry 6). -/
def byteEnables (addr n : Nat) : BitVec 4 :=
  if n = 4 then 0b1111#4 else BitVec.ofNat 4 ((2 ^ n - 1) <<< (addr % 4))

/-- What the engine's port is given of a host access of n bytes; only n = 4 is legal (R16, R63). -/
def portAccess (write : Bool) (addr n : Nat) (wdata : Word) : Event :=
  if 4 < n then .wide write else .bus ⟨makeTd (byteEnables addr n) write (windowOffset addr), wdata⟩

/-- A host access of n bytes at a system address, as the event the engine sees of it: none where the address lies outside the
window, because the interconnect does not deliver it (R61; log entry 21). -/
def memAccess (write : Bool) (addr n : Nat) (wdata : Word) : Option Event :=
  if inWindow addr then some (portAccess write addr n wdata) else none

/-- `MemRead(addr, n)` (R16). -/
def memRead (addr n : Nat) : Option Event := memAccess false addr n 0

/-- `MemWrite(addr, n, v)` (R16). -/
def memWrite (addr n : Nat) (v : Word) : Option Event := memAccess true addr n v

/-- `MemRead(ENGINE_BASE + off, 4)`, always inside the window (R16, R61). -/
def registerRead (off : Offset) : Event := portAccess false (Config.engineBase + off.toNat) 4 0

/-- `MemWrite(ENGINE_BASE + off, 4, v)`, always inside the window (R16, R61). -/
def registerWrite (off : Offset) (v : Word) : Event := portAccess true (Config.engineBase + off.toNat) 4 v

end Sys2Proof.Machine
end

