-- ==== Sys2Proof/Machine/HostProcedure.lean ====
section
/-! DEFINITION. The host's obligations (43_padding_and_digest.md R220 to R230): padding, parsing, the procedure for one
hash as the events it presents, and the digest. They bind the host; the engine checks none of them. -/

namespace Sys2Proof.Machine

/-! ## Padding and parsing -/

/-- BE64 (R221, R222). A number of 2^64 or more, for which the spec gives no bytes, is cut to its low 64 bits (log entry 23). -/
def be64 (x : Nat) : List Byte :=
  bytesBE ((BitVec.ofNat 64 x).extractLsb' 32 32) ++ bytesBE ((BitVec.ofNat 64 x).extractLsb' 0 32)

/-- k = (55 − L) mod 64, the number of zero bytes (R221). -/
def padZeros (len : Nat) : Nat := ((55 - (len : Int)) % 64).toNat

/-- pad(msg) (R221). It tests no length: past R224's limit its length field is cut (log entry 23); hashScript and updateContext, which
a host calls, fail there. -/
def pad (msg : List Byte) : List Byte :=
  msg ++ [0x80#8] ++ List.replicate (padZeros msg.length) 0 ++ be64 (8 * msg.length)

/-- The number of blocks of a padded message of L bytes (R223). -/
def blockCount (len : Nat) : Nat := (len + 8) / 64 + 1

/-- The first n groups of 64 bytes (R220). -/
def byteBlocks : Nat → List Byte → List (List Byte)
  | 0, _ => []
  | n + 1, bytes => bytes.take Config.blockBytes :: byteBlocks n (bytes.drop Config.blockBytes)

/-- Word j of a block of bytes, big-endian (R220). A block has 64 bytes; in a shorter list a missing byte counts as 0, and in a longer
one the rest is not read (log entry 24). -/
def blockWord (b : List Byte) (j : Nat) : Word :=
  be32 (b.getD (4 * j) 0) (b.getD (4 * j + 1) 0) (b.getD (4 * j + 2) 0) (b.getD (4 * j + 3) 0)

/-- The sixteen words of a block of bytes (R220). -/
def parseBlock (b : List Byte) : Vector Word 16 :=
  #v[blockWord b 0, blockWord b 1, blockWord b 2, blockWord b 3, blockWord b 4, blockWord b 5, blockWord b 6, blockWord b 7,
     blockWord b 8, blockWord b 9, blockWord b 10, blockWord b 11, blockWord b 12, blockWord b 13, blockWord b 14, blockWord b 15]

/-- The blocks B0, …, B(N−1) of a message (R220, R221, R223). -/
def messageBlocks (msg : List Byte) : List (Vector Word 16) :=
  (byteBlocks (blockCount msg.length) (pad msg)).map parseBlock

/-- The length limit: 8·L must be below 2^64 (R224). -/
def lengthFits (msg : List Byte) : Bool := decide (8 * msg.length < 2 ^ Config.lengthFieldBits)

/-! ## The digest -/

/-- The number of state words in a variant's digest (00_scope.md R3; R227, R228). -/
def digestWords : Variant → Nat
  | .sha256 => 8
  | .sha224 => 7

/-- The digest of a final state: its leading words, each most significant byte first (R227, R228). -/
def serializeDigest (v : Variant) (h : Vector Word 8) : List Byte := (h.toList.take (digestWords v)).flatMap bytesBE

/-- compress(...compress(compress(IV, B0), B1)..., B(N−1)), the chain of R225. -/
def chain (h : Vector Word 8) (blocks : List (Vector Word 16)) : Vector Word 8 := blocks.foldl compress h

/-- The digest of a message (R225). For a message past R224's limit, which has none, it is the value that the cut length field gives
(log entry 23). -/
def messageDigest (v : Variant) (msg : List Byte) : List Byte :=
  serializeDigest v (chain (initialHash v) (messageBlocks msg))

/-! ## The procedure for one hash -/

/-- `wr` of a command (30_encoding.md R100). -/
def writeCommand (c : Command) : Event := registerWrite 0x00#8 (encodeCommand c)

/-- `wr Mj, v` (R99). -/
def writeBlockWord (j : Fin 16) (v : Word) : Event := registerWrite (offsetOfM j) v

/-- `rd Hi` (R99). -/
def readHashWord (i : Fin 8) : Event := registerRead (offsetOfH i)

/-- `rd STATUS` (R99). -/
def readStatus : Event := registerRead 0x04#8

/-- LDBLK: the sixteen M writes in order (R100). -/
def loadBlock (b : Vector Word 16) : List Event := (List.finRange 16).map fun j => writeBlockWord j b[j]

/-- One block: LDBLK, COMPRESS, WAIT. The engine completes after any number of polls (70_reset_and_hazards.md R290), and
one more poll then shows BUSY = 0. -/
def blockEvents (b : Vector Word 16) (polls : Nat) : List Event :=
  loadBlock b ++ [writeCommand .compress] ++ List.replicate polls readStatus ++ [.engine, readStatus]

/-- All blocks, each with the number of polls its WAIT needs. -/
def blocksEvents (blocks : List (Vector Word 16)) (polls : List Nat) : List Event :=
  (blocks.zipWith blockEvents polls).flatten

/-- RDH n (R100). -/
def readDigest (v : Variant) : List Event := ((List.finRange 8).take (digestWords v)).map readHashWord

/-- The host's procedure for one hash (R225), for one answer of the engine's timing: the n-th element of `polls` is how
many reads of STATUS the n-th WAIT makes before the completion. It tests no length (log entry 23): hashScript does. -/
def hashEvents (v : Variant) (msg : List Byte) (polls : List Nat) : List Event :=
  writeCommand (.init v) :: (blocksEvents (messageBlocks msg) polls ++ readDigest v)

/-! ## The usage errors -/

/-- The host's usage errors (R224, R226). No engine access is made, and no digest is returned. -/
inductive UsageError where
  /-- The total bit length does not fit the length field (R224). -/
  | overflow
  /-- The context was finalized before (R226). -/
  | alreadyFinalized
  /-- An extendable-output finalize of a fixed-length variant (R226; log entry 14). -/
  | wrongFinalizeForm
  /-- The name names no variant of this engine (R226). -/
  | invalidAlgorithm
deriving DecidableEq, Repr

end Sys2Proof.Machine
end

