-- ==== Sys2Proof/Machine/Script.lean ====
section
/-! DEFINITION. Host scripts (30_encoding.md R99) and their pseudo-instructions (R100), and the host agent that runs a
script beside the engine. Control flow is the host's: the engine executes no branch. -/

namespace Sys2Proof.Machine

/-- The register names of scripts (R99). -/
inductive Reg where
  | cmd
  | status
  | ctrl
  | info
  | h (i : Fin 8)
  | m (j : Fin 16)
deriving DecidableEq, Repr

/-- off(reg), the register map (20_memory.md R62). -/
def Reg.offset : Reg → Offset
  | .cmd => 0x00#8
  | .status => 0x04#8
  | .ctrl => 0x08#8
  | .info => 0x0C#8
  | .h i => offsetOfH i
  | .m j => offsetOfM j

/-- The statements of a script (R99). Labels are numbers. -/
inductive Stmt where
  | wr (r : Reg) (v : Word)
  | rd (r : Reg)
  | label (l : Nat)
  | bnz (r : Reg) (bit : Nat) (target : Nat)
deriving DecidableEq, Repr

/-- The pseudo-instructions (R100). -/
inductive Pseudo where
  | command (c : Command)
  /-- With its fresh label. -/
  | wait (l : Nat)
  | ldblk (bytes : List Byte)
  | rdh (n : Nat)
  | clrst
deriving DecidableEq, Repr

/-- The expansions of R100, which gives LDBLK 64 bytes and RDH the n of a variant; log entry 24 for other numbers. -/
def Pseudo.expand : Pseudo → List Stmt
  | .command c => [.wr .cmd (encodeCommand c)]
  | .wait l => [.label l, .rd .status, .bnz .status 0 l]
  | .ldblk bytes => (List.finRange 16).map fun j => .wr (.m j) (blockWord bytes j.val)
  | .rdh n => ((List.finRange 8).take n).map fun i => .rd (.h i)
  | .clrst => [.wr .status 0x0000001E#32]

/-- The script of one block of the host's procedure, with the label of its WAIT (43_padding_and_digest.md R225: LDBLK, COMPRESS,
WAIT). -/
def blockScript (block : List Byte) (l : Nat) : List Stmt :=
  (Pseudo.ldblk block).expand ++ (Pseudo.command .compress).expand ++ (Pseudo.wait l).expand

/-- The scripts of blocks, one after the other, each with a label of its own from `first` on. -/
def blocksScript (first : Nat) (blocks : List (List Byte)) : List Stmt :=
  (blocks.zipIdx first).flatMap fun b => blockScript b.1 b.2

/-- The host's procedure for one hash as a script; a message too long makes no engine access (R224, R225). -/
def hashScript (v : Variant) (msg : List Byte) : Except UsageError (List Stmt) :=
  if lengthFits msg then
    .ok ((Pseudo.command (.init v)).expand ++
      blocksScript 0 (byteBlocks (blockCount msg.length) (pad msg)) ++
      (Pseudo.rdh (digestWords v)).expand)
  else .error .overflow

/-- The transaction a statement presents, if it is one (R16, R99). -/
def Stmt.event : Stmt → Option Event
  | .wr r v => memWrite (Config.engineBase + r.offset.toNat) 4 v
  | .rd r => memRead (Config.engineBase + r.offset.toNat) 4
  | .label _ => none
  | .bnz _ _ _ => none

/-- The host agent: its script, where it stands, and the values it has read, newest first. -/
structure ScriptHost where
  script   : List Stmt
  position : Nat
  reads    : List (Reg × Word)
deriving DecidableEq, Repr

/-- The value most recently read from a register (R99). -/
def ScriptHost.lastRead (p : ScriptHost) (r : Reg) : Option Word := (p.reads.find? (·.1 == r)).map (·.2)

/-- Where a label stands. R99 leaves two cases open: a label that the script does not hold, for which this is the script's end,
and one it holds more than once, for which this is the first (log entry 19). -/
def labelPosition (script : List Stmt) (l : Nat) : Nat := script.findIdx (· == .label l)

/-- A branch: taken where the bit of the value last read is 1 (R99). R99 leaves open a register never read (log entry 15) and a bit
number above 31 (log entry 22): the branch falls through in both. -/
def ScriptHost.branch (p : ScriptHost) (r : Reg) (bit target : Nat) : ScriptHost :=
  if ((p.lastRead r).getD 0).getLsbD bit then { p with position := labelPosition p.script target }
  else { p with position := p.position + 1 }

/-- What the host keeps of a finished transaction: a read's value is recorded (R99). -/
def ScriptHost.record (p : ScriptHost) (st : Stmt) (response : Response) : ScriptHost :=
  match st, response with
  | .rd r, .data v => { p with position := p.position + 1, reads := (r, v) :: p.reads }
  | _, _ => { p with position := p.position + 1 }

/-- One turn of the host: the statement at its position, its transaction performed by the engine's step. -/
def hostTurn (p : ScriptHost) (s : State) : ScriptHost × Host.Outcome State Fault Refusal :=
  match p.script[p.position]? with
  | none => (p, .next s)
  | some (.label _) => ({ p with position := p.position + 1 }, .next s)
  | some (.bnz r bit target) => (p.branch r bit target, .next s)
  | some st =>
    match st.event with
    | none => (p, .next s)
    | some e =>
      match step { s with inputs := e :: s.inputs } with
      | .next t => (p.record st t.response, .next t)
      | .fault r => (p, .fault r)
      | .refused r => (p, .refused r)

/-! ## Running a script beside the engine -/

/-- Whose turn it is (00_scope.md R12). -/
inductive Turn where
  | host
  | engine
deriving DecidableEq, Repr

/-- The host agent and the engine agent take turns, in any order (60_exceptions.md R256). -/
def runScript : List Turn → ScriptHost → State → Option (ScriptHost × State)
  | [], p, s => some (p, s)
  | .host :: turns, p, s =>
    match hostTurn p s with
    | (q, .next t) => runScript turns q t
    | (_, .fault _) => none
    | (_, .refused _) => none
  | .engine :: turns, p, s =>
    match step { s with inputs := .engine :: s.inputs } with
    | .next t => runScript turns p t
    | .fault _ => none
    | .refused _ => none

/-- A script from its first statement, with nothing read. -/
def ScriptHost.start (script : List Stmt) : ScriptHost := ⟨script, 0, []⟩

/-- What the procedure returns (43_padding_and_digest.md R225, R227, R228): once the script has ended, the words that RDH read, in
the order read, each most significant byte first. Before that it returns nothing (R226: no partial digest). -/
def ScriptHost.returned (p : ScriptHost) (v : Variant) : Option (List Byte) :=
  if p.script.length ≤ p.position then
    some ((p.reads.take (digestWords v)).reverse.flatMap fun r => bytesBE r.2)
  else none

end Sys2Proof.Machine
end

