-- ==== Sys2Proof/Machine/Context.lean ====
section
/-! DEFINITION. A message that arrives in pieces (43_padding_and_digest.md R225): the host's context, and the script that each
call on it presents to the engine. The chaining value is the engine's H; the host keeps fewer than 64 bytes. -/

namespace Sys2Proof.Machine

/-- A hash in progress, as the host keeps it (R225, R226; 10_state.md R45). -/
structure HashContext where
  variant   : Variant
  /-- The bytes that fill no block yet. -/
  buffer    : List Byte
  /-- How many message bytes there have been. -/
  total     : Nat
  finalized : Bool
deriving DecidableEq, Repr

/-- The context of a variant, and what its start presents: INIT (R225). -/
def initContext (v : Variant) : List Stmt × HashContext := ((Pseudo.command (.init v)).expand, ⟨v, [], 0, false⟩)

/-- `new(algorithm)` with BCH's names (30_encoding.md R92; R226: the error comes before any engine access). -/
def newContext (algorithm : String) : Except UsageError (List Stmt × HashContext) :=
  if algorithm = "SHA256" then .ok (initContext .sha256)
  else if algorithm = "SHA224" then .ok (initContext .sha224)
  else .error .invalidAlgorithm

/-- The blocks that the buffer and new bytes fill, and the bytes left over. -/
def fillBlocks (buffer bytes : List Byte) : List (List Byte) × List Byte :=
  let all := buffer ++ bytes
  let n := all.length / Config.blockBytes
  (byteBlocks n all, all.drop (Config.blockBytes * n))

/-- The script of the blocks that new bytes fill. As many blocks went before as the bytes so far fill, so the WAIT labels go on
from there. -/
def HashContext.present (c : HashContext) (bytes : List Byte) : List Stmt :=
  blocksScript (c.total / Config.blockBytes) (fillBlocks c.buffer bytes).1

/-- `update(bytes)`: each block is loaded and compressed as it fills (R225). Of the errors, already finalized is tested first, an
update of no bytes included (log entries 14 and 20). -/
def updateContext (c : HashContext) (bytes : List Byte) : Except UsageError (List Stmt × HashContext) :=
  if c.finalized then .error .alreadyFinalized
  else if 2 ^ Config.lengthFieldBits ≤ 8 * (c.total + bytes.length) then .error .overflow
  else .ok (c.present bytes, { c with buffer := (fillBlocks c.buffer bytes).2, total := c.total + bytes.length })

/-- What the padding of a message of L bytes appends to it (R221; log entry 23 past R224's limit, where updateContext fails). -/
def padTail (len : Nat) : List Byte := [0x80#8] ++ List.replicate (padZeros len) 0 ++ be64 (8 * len)

/-- `finalize`: the padding goes through the buffer, RDH reads the digest, and the context is spent (R221, R225, R226).
`extendable` asks for the extendable-output form, which neither variant has (log entry 14). -/
def finalizeContext (c : HashContext) (extendable : Bool) : Except UsageError (List Stmt × HashContext) :=
  if c.finalized then .error .alreadyFinalized
  else if extendable then .error .wrongFinalizeForm
  else .ok (c.present (padTail c.total) ++ (Pseudo.rdh (digestWords c.variant)).expand,
    { c with buffer := [], finalized := true })

/-- Updates with the pieces of a message, in order: what they present together. -/
def updateAll : List (List Byte) → HashContext → Except UsageError (List Stmt × HashContext)
  | [], c => .ok ([], c)
  | piece :: pieces, c =>
    match updateContext c piece with
    | .error e => .error e
    | .ok (script, d) =>
      match updateAll pieces d with
      | .error e => .error e
      | .ok (scripts, f) => .ok (script ++ scripts, f)

/-- One hash of a message in pieces: start, updates, finalize. -/
def hashInPieces (v : Variant) (pieces : List (List Byte)) : Except UsageError (List Stmt × HashContext) :=
  match updateAll pieces (initContext v).2 with
  | .error e => .error e
  | .ok (scripts, c) =>
    match finalizeContext c false with
    | .error e => .error e
    | .ok (script, d) => .ok ((initContext v).1 ++ scripts ++ script, d)

end Sys2Proof.Machine
end

