-- ==== Sys2Proof/Safety.lean ====
section
/-! DEFINITION. The terms claims use: runs and what the host sees of them, the invariant, and the accesses a host
program may make (70_reset_and_hazards.md R285, R286). -/

namespace Sys2Proof.Machine

/-- k steps: what each of them put on the port, in order, and the state they end in. -/
def trace : Nat → State → Option (List Response × State)
  | 0, s => some ([], s)
  | k + 1, s =>
    match step s with
    | .next t => (trace k t).map fun r => (t.response :: r.1, r.2)
    | .fault _ => none
    | .refused _ => none

/-- The state after k steps. -/
def stateAfter (k : Nat) (s : State) : Option State := (trace k s).map Prod.snd

/-- BUSY and DONE are never both 1: acceptance clears DONE and completion clears BUSY (41_compression.md R170, R175). -/
abbrev State.Inv (s : State) : Prop := ¬ (s.status.busy = true ∧ s.status.done = true)

/-- An event that is the host's (00_scope.md R12). -/
def Event.fromHost : Event → Bool
  | .bus _ => true
  | .wide _ => true
  | .engine => false
  | .reset _ => false

/-- Whether an offset is that of CMD, an H or an M register: the targets that are refused while busy (R252). -/
def guardedOffset (off : Offset) : Bool :=
  off == 0x00#8 || off &&& 0xE3#8 == 0x20#8 || off &&& 0xC3#8 == 0x40#8

/-- A transaction that respects the rules for host programs: a legal access (20_memory.md R63); while busy no write to CMD,
H or M (R285) and no read of H (R286); and only legal words to CMD (30_encoding.md R94). -/
def hazardFree (t : Transaction) (s : State) : Bool :=
  tdLegal t.td &&
  !(s.status.busy && tdWe t.td && guardedOffset (tdOff t.td)) &&
  !(s.status.busy && !tdWe t.td && tdOff t.td &&& 0xE3#8 == 0x20#8) &&
  !(tdWe t.td && tdOff t.td == 0x00#8 && !(decodeCommand t.wdata).isOk)

end Sys2Proof.Machine
end

