-- ==== Sys2Proof/Certificates/Slice0/Obligations.lean ====
section
/-! DEFINITION. The statements for the provers. Each docstring names the rule of spec/ it formalises. -/

open Sys2Proof Sys2Proof.Machine

/-! ## Encoding -/

/-- 30_encoding.md R98: the five worked encodings. -/
def Obligations.WorkedEncodingsDecode : Prop :=
  decode (.transaction 0x1F00#13 0x00000002#32) = .ok (.wrCmd 0x00000002#32) ∧
  decode (.command 0x00000002#32) = .ok .compress ∧
  (∀ v, decode (.transaction 0x1F54#13 v) = .ok (.wrM 5 v)) ∧
  (∀ v, decode (.transaction 0x1E3C#13 v) = .ok (.rdH 7)) ∧
  (∀ v s, takeEvent (.bus ⟨0x0340#13, v⟩) s =
    .next { s with status := { s.status with errAcc := true }, response := .ack }) ∧
  (∀ s, s.status.busy = false → takeEvent (.bus ⟨0x1F00#13, 0x00000021#32⟩) s =
    .next { s with status := { s.status with errIll := true }, response := .ack })

/-- 30_encoding.md R97: every TD of a legal access matches exactly one row, and no other TD matches any. -/
def Obligations.TdRowsPartitionTheLegalAccesses : Prop :=
  ∀ td : Td, (tdRows.filter (·.matches td)).length = if tdLegal td then 1 else 0

/-- Decoding the encoding of a well-formed instruction gives the instruction, for every constructor and operand. -/
def Obligations.DecodeInvertsEncode : Prop := ∀ i : Instr, i.wellFormed = true → decode (encode i) = .ok i

/-- What the decoder reads from a transaction is well formed, and its encoding is the same descriptor, with the same data if it is
a write: no bit of it is dropped. -/
def Obligations.EncodeRecoversTheDescriptor : Prop :=
  ∀ (td : Td) (v : Word) (i : Instr), decodeTransaction td v = .ok i →
    i.wellFormed = true ∧ encode i = .transaction td (if tdWe td then v else 0)

/-- 30_encoding.md R94: the legal command words are the five of R95; the rest are illegal, field by field; an illegal word
written while idle sets ERR_ILL and does nothing else; NOP is the only command word without effect on the registers. -/
def Obligations.LegalCommandWordsAreTheFive : Prop :=
  ∀ v : Word,
    ((∃ c, decodeCommand v = .ok c) ↔
      v ∈ [0x00000000#32, 0x00000001#32, 0x00000011#32, 0x00000002#32, 0x00000003#32]) ∧
    ((∃ e, decodeCommand v = .error e) ↔
      v.extractLsb' 6 26 ≠ 0 ∨ 4 ≤ (v.extractLsb' 0 4).toNat ∨
      (v.extractLsb' 0 4 ≠ 1 ∧ v.extractLsb' 4 2 ≠ 0) ∨ (v.extractLsb' 0 4 = 1 ∧ 2 ≤ (v.extractLsb' 4 2).toNat)) ∧
    (∀ s : State, s.status.busy = false → (∃ e, decodeCommand v = .error e) →
      exec (.wrCmd v) s = .next { s with status := { s.status with errIll := true }, response := .ack }) ∧
    ((∀ s : State, s.status.busy = false → exec (.wrCmd v) s = .next { s with response := .ack }) ↔ v = 0x00000000#32)

/-- A step whose next event is a transaction runs the instruction that is decoded from it, on the state without that event;
a command is run when its word is written to CMD; a descriptor that decodes to nothing is an access error. -/
def Obligations.StepRunsTheDecodedInstruction : Prop :=
  ∀ (s : State) (e : Encoded) (rest : List Event), s.inputs = .bus (Transaction.ofEncoded e) :: rest →
    (∀ i, decode e = .ok i → step s = exec i { s with inputs := rest }) ∧
    (∀ td v r, e = .transaction td v → decode e = .error r →
      step s = .next { s with inputs := rest, status := { s.status with errAcc := true },
                              response := if tdWe td then .ack else .data 0 })

/-! ## Commands -/

/-- 42_control_commands.md R190, NOP. -/
def Obligations.NopChangesNoRegister : Prop :=
  decode (.command 0x00000000#32) = .ok .nop ∧
  ∀ s : State,
    exec (.wrCmd 0x00000000#32) s = exec .nop s ∧
    (s.status.busy = false → exec .nop s = .next { s with response := .ack }) ∧
    (s.status.busy = true →
      exec .nop s = .next { s with status := { s.status with errBusy := true }, response := .ack })

/-- 42_control_commands.md R191, INIT.SHA256, with the words of R193. -/
def Obligations.InitSha256LoadsItsInitialHash : Prop :=
  decode (.command 0x00000001#32) = .ok .initSha256 ∧
  ∀ s : State,
    exec (.wrCmd 0x00000001#32) s = exec .initSha256 s ∧
    (s.status.busy = false → exec .initSha256 s =
      .next { s with
        h := #v[0x6A09E667#32, 0xBB67AE85#32, 0x3C6EF372#32, 0xA54FF53A#32, 0x510E527F#32, 0x9B05688C#32,
                0x1F83D9AB#32, 0x5BE0CD19#32],
        response := .ack }) ∧
    (s.status.busy = true →
      exec .initSha256 s = .next { s with status := { s.status with errBusy := true }, response := .ack })

/-- 42_control_commands.md R192, INIT.SHA224, with the words of R194; a reserved VAR is no INIT. -/
def Obligations.InitSha224LoadsItsInitialHash : Prop :=
  decode (.command 0x00000011#32) = .ok .initSha224 ∧
  ∀ s : State,
    exec (.wrCmd 0x00000011#32) s = exec .initSha224 s ∧
    (s.status.busy = false → exec .initSha224 s =
      .next { s with
        h := #v[0xC1059ED8#32, 0x367CD507#32, 0x3070DD17#32, 0xF70E5939#32, 0xFFC00B31#32, 0x68581511#32,
                0x64F98FA7#32, 0xBEFA4FA4#32],
        response := .ack }) ∧
    (s.status.busy = true →
      exec .initSha224 s = .next { s with status := { s.status with errBusy := true }, response := .ack }) ∧
    (s.status.busy = false → ∀ v ∈ [0x00000021#32, 0x00000031#32],
      exec (.wrCmd v) s = .next { s with status := { s.status with errIll := true }, response := .ack })

/-- 42_control_commands.md R195, ZEROIZE; it cannot abort a compression in flight. -/
def Obligations.ZeroizeClearsHashAndBlock : Prop :=
  decode (.command 0x00000003#32) = .ok .zeroize ∧
  ∀ s : State,
    exec (.wrCmd 0x00000003#32) s = exec .zeroize s ∧
    (s.status.busy = false → exec .zeroize s =
      .next { s with
        h := #v[0, 0, 0, 0, 0, 0, 0, 0],
        m := #v[0, 0, 0, 0, 0, 0, 0, 0, 0, 0, 0, 0, 0, 0, 0, 0],
        response := .ack }) ∧
    (s.status.busy = true →
      exec .zeroize s = .next { s with status := { s.status with errBusy := true }, response := .ack })

/-- 41_compression.md R170, COMPRESS: its acceptance, its refusal while busy, and that no access error issues it. -/
def Obligations.CompressAcceptanceSetsBusy : Prop :=
  decode (.command 0x00000002#32) = .ok .compress ∧
  ∀ s : State,
    exec (.wrCmd 0x00000002#32) s = exec .compress s ∧
    (s.status.busy = false → exec .compress s =
      .next { s with status := { s.status with busy := true, done := false }, response := .ack }) ∧
    (s.status.busy = true → exec .compress s =
      .next { s with status := { s.status with errBusy := true }, response := .ack }) ∧
    (∀ td t, tdLegal td = false → takeEvent (.bus ⟨td, 0x00000002#32⟩) s = .next t → t.status.busy = s.status.busy)

/-- 30_encoding.md R102: the chain of tests of a CMD write, with the next state of every branch. -/
def Obligations.CmdWriteFollowsTheTestChain : Prop :=
  ∀ (v : Word) (s : State), exec (.wrCmd v) s = .next
    (if s.status.busy then { s with status := { s.status with errBusy := true }, response := .ack }
     else if v = 0x00000000#32 then { s with response := .ack }
     else if v = 0x00000001#32 then { s with h := iv256, response := .ack }
     else if v = 0x00000011#32 then { s with h := iv224, response := .ack }
     else if v = 0x00000002#32 then
       { s with status := { s.status with busy := true, done := false }, response := .ack }
     else if v = 0x00000003#32 then
       { s with h := Vector.replicate 8 0, m := Vector.replicate 16 0, response := .ack }
     else { s with status := { s.status with errIll := true }, response := .ack })

/-! ## Registers -/

/-- 10_state.md R32: a read of H[i]. While busy the value is free: some value is returned, and nothing else changes but
the model's count of free values (log entry 3). -/
def Obligations.HashWordReadWhileIdleOrBusy : Prop :=
  ∀ (i : Fin 8) (s : State),
    (s.status.busy = false → exec (.rdH i) s = .next { s with response := .data s.h[i] }) ∧
    (s.status.busy = true → ∃ v n, exec (.rdH i) s = .next { s with response := .data v, draws := n })

/-- 10_state.md R33: a write of H[i]. -/
def Obligations.HashWordWriteOrBusyRefusal : Prop :=
  ∀ (i : Fin 8) (v : Word) (s : State),
    (s.status.busy = false → exec (.wrH i v) s = .next { s with h := s.h.set i v, response := .ack }) ∧
    (s.status.busy = true →
      exec (.wrH i v) s = .next { s with status := { s.status with errBusy := true }, response := .ack })

/-- 10_state.md R35: reads and writes of M[j]. -/
def Obligations.BlockWordReadAndWrite : Prop :=
  ∀ (j : Fin 16) (v : Word) (s : State),
    exec (.rdM j) s = .next { s with response := .data s.m[j] } ∧
    (s.status.busy = false → exec (.wrM j v) s = .next { s with m := s.m.set j v, response := .ack }) ∧
    (s.status.busy = true →
      exec (.wrM j v) s = .next { s with status := { s.status with errBusy := true }, response := .ack })

/-- 10_state.md R37: CMD reads as zero and a write of it decodes the word; it holds nothing between transactions, so what a
read returns does not depend on what was written. -/
def Obligations.CmdReadsZeroAndKeepsNothing : Prop :=
  ∀ (v : Word) (s : State),
    exec .rdCmd s = .next { s with response := .data 0 } ∧
    (∀ c, s.status.busy = false → decodeCommand v = .ok c → exec (.wrCmd v) s = exec c.instr s) ∧
    (∀ t, exec (.wrCmd v) s = .next t → exec .rdCmd t = .next { t with response := .data 0 })

/-- 10_state.md R38, the accesses: what a read of STATUS returns, bit by bit, and what a write clears; busy or not. -/
def Obligations.StatusReadAndWriteOneToClear : Prop :=
  ∀ (v : Word) (s : State),
    (∃ w : Word, exec .rdStatus s = .next { s with response := .data w } ∧
      w.getLsbD 0 = s.status.busy ∧ w.getLsbD 1 = s.status.done ∧ w.getLsbD 2 = s.status.errIll ∧
      w.getLsbD 3 = s.status.errBusy ∧ w.getLsbD 4 = s.status.errAcc ∧ ∀ k, 5 ≤ k → w.getLsbD k = false) ∧
    exec (.wrStatus v) s = .next { s with
      status := { busy := s.status.busy
                  done := if v.getLsbD 1 then false else s.status.done
                  errIll := if v.getLsbD 2 then false else s.status.errIll
                  errBusy := if v.getLsbD 3 then false else s.status.errBusy
                  errAcc := if v.getLsbD 4 then false else s.status.errAcc }
      response := .ack }

/-- 10_state.md R39: CTRL, busy or not, its reset value, and what its bits do to IRQ. -/
def Obligations.CtrlReadWriteAndMeaning : Prop :=
  State.reset.ctrl = ⟨false, false⟩ ∧
  ∀ (v : Word) (s : State),
    exec (.wrCtrl v) s = .next { s with ctrl := ⟨v.getLsbD 0, v.getLsbD 1⟩, response := .ack } ∧
    (∃ w : Word, exec .rdCtrl s = .next { s with response := .data w } ∧
      w.getLsbD 0 = s.ctrl.doneIe ∧ w.getLsbD 1 = s.ctrl.errIe ∧ ∀ k, 2 ≤ k → w.getLsbD k = false) ∧
    (s.ctrl.doneIe = true → s.status.done = true → s.irq = true) ∧
    (s.ctrl.errIe = true → (s.status.errIll || s.status.errBusy || s.status.errAcc) = true → s.irq = true)

/-- 10_state.md R40: INFO is constant, its fields are the parameters of 00_scope.md R8, and writes to it are ignored. -/
def Obligations.InfoIsConstant : Prop :=
  (∀ (v : Word) (s : State),
    exec .rdInfo s = .next { s with response := .data 0x01104020#32 } ∧
    exec (.wrInfo v) s = .next { s with response := .ack }) ∧
  (0x01104020#32 : Word).extractLsb' 0 8 = BitVec.ofNat 8 Config.wordBits ∧
  (0x01104020#32 : Word).extractLsb' 8 8 = BitVec.ofNat 8 Config.rounds ∧
  (0x01104020#32 : Word).extractLsb' 16 8 = BitVec.ofNat 8 Config.blockWords ∧
  (0x01104020#32 : Word).extractLsb' 24 8 = BitVec.ofNat 8 Config.version

/-- 20_memory.md R65: the reserved offsets read zero, ignore writes and raise nothing. -/
def Obligations.ReservedOffsetsReadZeroIgnoreWrites : Prop :=
  ∀ (off : Offset) (v : Word) (s : State), off.toNat % 4 = 0 →
    (0x10 ≤ off.toNat → off.toNat ≤ 0x1C →
      decode (.transaction (readTd off) v) = .ok (.rdRsvdLo off) ∧
      decode (.transaction (writeTd off) v) = .ok (.wrRsvdLo off v) ∧
      exec (.rdRsvdLo off) s = .next { s with response := .data 0 } ∧
      exec (.wrRsvdLo off v) s = .next { s with response := .ack }) ∧
    (0x80 ≤ off.toNat →
      decode (.transaction (readTd off) v) = .ok (.rdRsvdHi off) ∧
      decode (.transaction (writeTd off) v) = .ok (.wrRsvdHi off v) ∧
      exec (.rdRsvdHi off) s = .next { s with response := .data 0 } ∧
      exec (.wrRsvdHi off v) s = .next { s with response := .ack })

/-- 20_memory.md R62, R69: while idle, a legal read at any offset returns the register the map puts there and changes
nothing but the port. -/
def Obligations.LegalReadReturnsTheMappedRegister : Prop :=
  ∀ (td : Td) (v : Word) (s : State), tdLegal td = true → tdWe td = false → s.status.busy = false →
    takeEvent (.bus ⟨td, v⟩) s = .next { s with response := .data (s.window (tdOff td)) }

/-- 20_memory.md R69, the frame of every read: a legal read, busy or not, changes no register. -/
def Obligations.LegalReadsChangeNoRegister : Prop :=
  ∀ (td : Td) (v : Word) (s : State), tdLegal td = true → tdWe td = false →
    ∃ w n, takeEvent (.bus ⟨td, v⟩) s = .next { s with response := .data w, draws := n }

/-- 10_state.md R43, the frame of every register write: while idle, a legal write outside CMD changes the window at its own
offset alone. -/
def Obligations.LegalWriteChangesOneOffset : Prop :=
  ∀ (td : Td) (v : Word) (s : State), tdLegal td = true → tdWe td = true → tdOff td ≠ 0x00#8 → s.status.busy = false →
    ∃ t, takeEvent (.bus ⟨td, v⟩) s = .next t ∧ t.inputs = s.inputs ∧ t.draws = s.draws ∧
      ∀ off : Offset, off.toNat % 4 = 0 → off ≠ tdOff td → t.window off = s.window off

/-- 20_memory.md R70: a read that follows a write sees it, for every register that stores a value. -/
def Obligations.ReadAfterWriteSeesTheWrite : Prop :=
  ∀ (v : Word) (s t : State), s.status.busy = false →
    (∀ i k : Fin 8, exec (.wrH i v) s = .next t →
      exec (.rdH k) t = .next { t with response := .data (if k = i then v else s.h[k]) }) ∧
    (∀ j k : Fin 16, exec (.wrM j v) s = .next t →
      exec (.rdM k) t = .next { t with response := .data (if k = j then v else s.m[k]) }) ∧
    (exec (.wrCtrl v) s = .next t → exec .rdCtrl t = .next { t with response := .data (v &&& 3#32) })

/-! ## Errors and the interrupt -/

/-- 20_memory.md R64, 60_exceptions.md R253: every access that is not an aligned whole word sets ERR_ACC and does nothing
else, at every offset, busy or not; a read of that kind returns 0. -/
def Obligations.IllegalAccessSetsErrAccOnly : Prop :=
  ∀ s : State,
    (∀ (td : Td) (v : Word), ((tdOff td).extractLsb' 0 2 ≠ 0b00#2 ∨ tdBe td ≠ 0b1111#4) →
      takeEvent (.bus ⟨td, v⟩) s = .next { s with status := { s.status with errAcc := true },
                                                  response := if tdWe td then .ack else .data 0 }) ∧
    (∀ write, takeEvent (.wide write) s = .next { s with status := { s.status with errAcc := true },
                                                         response := if write then .ack else .data 0 })

/-- The host's MemRead and MemWrite (00_scope.md R16, 20_memory.md R61, R63, R64). An access that starts inside the window is
delivered, one that starts outside is not (log entry 21). A delivered access of any size but 4 sets ERR_ACC and nothing else; for
sizes below 4 this goes through the byte lanes of log entry 6, the model's reading. A 4-byte access at ENGINE_BASE + off is the
transaction at that offset with all byte enables. -/
def Obligations.OnlyFourByteAccessesAreLegal : Prop :=
  ∀ (write : Bool) (addr n : Nat) (v : Word) (s : State),
    (Config.engineBase ≤ addr → addr < Config.engineBase + 256 → n ≠ 4 →
      ∃ e, memAccess write addr n v = some e ∧ takeEvent e s =
        .next { s with status := { s.status with errAcc := true }, response := if write then .ack else .data 0 }) ∧
    (addr < Config.engineBase ∨ Config.engineBase + 256 ≤ addr → memAccess write addr n v = none) ∧
    (∀ off : Offset,
      memAccess write (Config.engineBase + off.toNat) 4 v = some (.bus ⟨makeTd 0b1111#4 write off, v⟩))

/-- 60_exceptions.md R252, ERR_BUSY: cause and effect, what does not raise it, and that the compression goes on. -/
def Obligations.BusyWriteSetsErrBusyOnly : Prop :=
  ∀ (td : Td) (v : Word) (s : State), s.status.busy = true → tdLegal td = true →
    (tdWe td = true → guardedOffset (tdOff td) = true →
      takeEvent (.bus ⟨td, v⟩) s =
        .next { s with status := { s.status with errBusy := true }, response := .ack } ∧
      ∃ r, takeEvent .engine { s with status := { s.status with errBusy := true }, response := .ack } =
        .next { s with h := compress s.h s.m, status := { s.status with errBusy := true, busy := false, done := true },
                       response := r }) ∧
    ((tdWe td = false ∨ guardedOffset (tdOff td) = false) →
      ∃ t, takeEvent (.bus ⟨td, v⟩) s = .next t ∧ (t.status.errBusy = true → s.status.errBusy = true))

/-- 60_exceptions.md R251, ERR_ILL: cause and effect, and that nothing else raises it. -/
def Obligations.IllegalCommandSetsErrIllOnly : Prop :=
  (∀ (v : Word) (s : State), s.status.busy = false →
    v ∉ [0x00000000#32, 0x00000001#32, 0x00000011#32, 0x00000002#32, 0x00000003#32] →
    takeEvent (.bus ⟨0x1F00#13, v⟩) s =
      .next { s with status := { s.status with errIll := true }, response := .ack }) ∧
  (∀ (e : Event) (s t : State), takeEvent e s = .next t → s.status.errIll = false → t.status.errIll = true →
    s.status.busy = false ∧ ∃ v, e = .bus ⟨0x1F00#13, v⟩ ∧
      v ∉ [0x00000000#32, 0x00000001#32, 0x00000011#32, 0x00000002#32, 0x00000003#32])

/-- 60_exceptions.md R255: the first of the three checks that holds decides, and at most one error bit is set. -/
def Obligations.FirstErrorCheckDecides : Prop :=
  ∀ (td : Td) (v : Word) (s : State), ∃ t, takeEvent (.bus ⟨td, v⟩) s = .next t ∧
    if tdLegal td = false then t.status = { s.status with errAcc := true }
    else if s.status.busy = true ∧ tdWe td = true ∧ guardedOffset (tdOff td) = true then
      t.status = { s.status with errBusy := true }
    else if tdWe td = true ∧ tdOff td = 0x00#8 ∧ (decodeCommand v).isOk = false then
      t.status = { s.status with errIll := true }
    else (t.status.errAcc = true → s.status.errAcc = true) ∧ (t.status.errBusy = true → s.status.errBusy = true) ∧
      (t.status.errIll = true → s.status.errIll = true)

/-- 10_state.md R38. First the "set by" and "cleared by" columns, over every step: the exact condition under which each STATUS bit
is 1 after it. Then the accesses: what a read returns, bit by bit, and what a write clears, busy or not. -/
def Obligations.StatusBitsAfterAStep : Prop :=
  (∀ s t : State, step s = .next t →
    let e := (fetch s).1
    let isReset := ∃ d, e = .reset d
    let clears := fun k : Nat => ∃ v : Word, e = .bus ⟨0x1F04#13, v⟩ ∧ v.getLsbD k = true
    let accepts := s.status.busy = false ∧ e = .bus ⟨0x1F00#13, 0x00000002#32⟩
    (t.status.busy = true ↔ accepts ∨ (s.status.busy = true ∧ e ≠ .engine ∧ ¬ isReset)) ∧
    (t.status.done = true ↔
      (s.status.busy = true ∧ e = .engine) ∨ (s.status.done = true ∧ ¬ clears 1 ∧ ¬ accepts ∧ ¬ isReset)) ∧
    (t.status.errIll = true ↔
      (s.status.busy = false ∧ ∃ v, e = .bus ⟨0x1F00#13, v⟩ ∧ (decodeCommand v).isOk = false) ∨
      (s.status.errIll = true ∧ ¬ clears 2 ∧ ¬ isReset)) ∧
    (t.status.errBusy = true ↔
      (s.status.busy = true ∧ ∃ td v, e = .bus ⟨td, v⟩ ∧ tdLegal td = true ∧ tdWe td = true ∧
        guardedOffset (tdOff td) = true) ∨
      (s.status.errBusy = true ∧ ¬ clears 3 ∧ ¬ isReset)) ∧
    (t.status.errAcc = true ↔
      ((∃ td v, e = .bus ⟨td, v⟩ ∧ tdLegal td = false) ∨ ∃ w, e = .wide w) ∨
      (s.status.errAcc = true ∧ ¬ clears 4 ∧ ¬ isReset))) ∧
  (∀ (v : Word) (s : State),
    (∃ w : Word, exec .rdStatus s = .next { s with response := .data w } ∧
      w.getLsbD 0 = s.status.busy ∧ w.getLsbD 1 = s.status.done ∧ w.getLsbD 2 = s.status.errIll ∧
      w.getLsbD 3 = s.status.errBusy ∧ w.getLsbD 4 = s.status.errAcc ∧ ∀ k, 5 ≤ k → w.getLsbD k = false) ∧
    exec (.wrStatus v) s = .next { s with
      status := { busy := s.status.busy
                  done := s.status.done && !v.getLsbD 1
                  errIll := s.status.errIll && !v.getLsbD 2
                  errBusy := s.status.errBusy && !v.getLsbD 3
                  errAcc := s.status.errAcc && !v.getLsbD 4 }
      response := .ack })

/-- 60_exceptions.md R250: no step stops the machine, whatever the state and the event. -/
def Obligations.EveryStepAnswersNext : Prop := ∀ s : State, ∃ t, step s = .next t

/-- 60_exceptions.md R250: an error bit blocks nothing. Two states that differ in the error bits alone step to states that
differ in the error bits alone, but for the value a read of STATUS returns. -/
def Obligations.ErrorBitsBlockNothing : Prop :=
  ∀ (s t u : State) (a b c : Bool),
    step s = .next t →
    step { s with status := { s.status with errIll := a, errBusy := b, errAcc := c } } = .next u →
    u.h = t.h ∧ u.m = t.m ∧ u.ctrl = t.ctrl ∧ u.inputs = t.inputs ∧ u.draws = t.draws ∧
      u.status.busy = t.status.busy ∧ u.status.done = t.status.done ∧
      (u.response = t.response ∨ ∃ v, (fetch s).1 = .bus ⟨0x1E04#13, v⟩)

/-- 60_exceptions.md R260: the IRQ output at every instant, and the only steps it rises or falls in. -/
def Obligations.IrqLevelRisesAndFalls : Prop :=
  (∀ s : State, s.irq =
    ((s.status.done && s.ctrl.doneIe) ||
      ((s.status.errIll || s.status.errBusy || s.status.errAcc) && s.ctrl.errIe))) ∧
  ∀ s t : State, step s = .next t →
    (s.irq = false → t.irq = true →
      ((fetch s).1 = .engine ∧ s.status.busy = true ∧ s.ctrl.doneIe = true) ∨
      (s.ctrl.errIe = true ∧ s.status.anyError = false ∧ t.status.anyError = true) ∨
      ∃ v, (fetch s).1 = .bus ⟨0x1F08#13, v⟩) ∧
    (s.irq = true → t.irq = false →
      (∃ v, (fetch s).1 = .bus ⟨0x1F04#13, v⟩) ∨ (∃ v, (fetch s).1 = .bus ⟨0x1F08#13, v⟩) ∨
      (fetch s).1 = .bus ⟨0x1F00#13, 0x00000002#32⟩ ∨ ∃ d, (fetch s).1 = .reset d)

/-- 60_exceptions.md R256: a W1C write of DONE ordered before the completion leaves DONE = 1, and a write to CMD, H or M is a
busy write before the completion and an idle write after it. -/
def Obligations.SetWinsOverClearInTheSameCycle : Prop :=
  ∀ (s : State) (v : Word), s.status.busy = true →
    (∃ t u, takeEvent (.bus ⟨0x1F04#13, v⟩) s = .next t ∧ takeEvent .engine t = .next u ∧
      u.status.done = true ∧ u.status.busy = false ∧ u.h = compress s.h s.m) ∧
    (∀ j : Fin 16, ∃ t u, exec (.wrM j v) s = .next t ∧ takeEvent .engine t = .next u ∧ u.m = s.m ∧
      u.status.errBusy = true) ∧
    (∀ j : Fin 16, ∃ t u, takeEvent .engine s = .next t ∧ exec (.wrM j v) t = .next u ∧ u.m = s.m.set j v ∧
      u.status.errBusy = s.status.errBusy)

/-! ## Word functions and the compression -/

/-- 40_word_primitives.md R120, R121: the rotation and the shift, bit by bit, and the amounts the engine uses. -/
def Obligations.RotationAndShiftBitwise : Prop :=
  ∀ (n : Nat) (x : Word), 1 ≤ n → n ≤ 31 →
    rotr n x = (x >>> n) ||| (x <<< (32 - n)) ∧
    (∀ k, k < 32 → (rotr n x).getLsbD k = x.getLsbD ((k + n) % 32)) ∧
    rotr n 0 = 0 ∧ rotr n 0xFFFFFFFF#32 = 0xFFFFFFFF#32 ∧
    shr n x = x >>> n ∧
    (∀ k, 32 - n ≤ k → (shr n x).getLsbD k = false) ∧
    (shr n 0xFFFFFFFF#32).toNat = 2 ^ (32 - n) - 1 ∧
    bigSigma0 x = rotr 2 x ^^^ rotr 13 x ^^^ rotr 22 x ∧ bigSigma1 x = rotr 6 x ^^^ rotr 11 x ^^^ rotr 25 x ∧
    smallSigma0 x = rotr 7 x ^^^ rotr 18 x ^^^ shr 3 x ∧ smallSigma1 x = rotr 17 x ^^^ rotr 19 x ^^^ shr 10 x

/-- 40_word_primitives.md R123, R124: choice and majority, bit by bit, with their corner cases. -/
def Obligations.ChoiceAndMajorityBitwise : Prop :=
  ∀ x y z : Word,
    ch x y z = (x &&& y) ^^^ (~~~x &&& z) ∧
    (∀ k, (ch x y z).getLsbD k = if x.getLsbD k then y.getLsbD k else z.getLsbD k) ∧
    ch 0xFFFFFFFF#32 y z = y ∧ ch 0 y z = z ∧ ch x y y = y ∧
    maj x y z = (x &&& y) ^^^ (x &&& z) ^^^ (y &&& z) ∧
    (∀ k, (maj x y z).getLsbD k =
      ((x.getLsbD k && y.getLsbD k) || (x.getLsbD k && z.getLsbD k) || (y.getLsbD k && z.getLsbD k))) ∧
    maj x x z = x ∧ maj x y z = maj y x z ∧ maj x y z = maj x z y

/-- 40_word_primitives.md R125 to R128: the four sigma functions, bit by bit, with their corner cases. -/
def Obligations.SigmaFunctionsBitwise : Prop :=
  (∀ (x : Word) (k : Nat), k < 32 →
    (bigSigma0 x).getLsbD k = ((x.getLsbD ((k + 2) % 32) ^^ x.getLsbD ((k + 13) % 32)) ^^ x.getLsbD ((k + 22) % 32)) ∧
    (bigSigma1 x).getLsbD k = ((x.getLsbD ((k + 6) % 32) ^^ x.getLsbD ((k + 11) % 32)) ^^ x.getLsbD ((k + 25) % 32)) ∧
    (smallSigma0 x).getLsbD k = ((x.getLsbD ((k + 7) % 32) ^^ x.getLsbD ((k + 18) % 32)) ^^ x.getLsbD (k + 3)) ∧
    (smallSigma1 x).getLsbD k = ((x.getLsbD ((k + 17) % 32) ^^ x.getLsbD ((k + 19) % 32)) ^^ x.getLsbD (k + 10))) ∧
  bigSigma0 0 = 0 ∧ bigSigma0 0xFFFFFFFF#32 = 0xFFFFFFFF#32 ∧
  bigSigma1 0 = 0 ∧ bigSigma1 0xFFFFFFFF#32 = 0xFFFFFFFF#32 ∧
  smallSigma0 0 = 0 ∧ smallSigma0 0xFFFFFFFF#32 = 0x1FFFFFFF#32 ∧
  smallSigma1 0 = 0 ∧ smallSigma1 0xFFFFFFFF#32 = 0x003FFFFF#32

/-- 41_compression.md R150, 42_control_commands.md R193, R194: the tables, and that they are the fractional parts of the cube and
square roots of the primes that the rules name. -/
def Obligations.ConstantsAreFractionsOfPrimeRoots : Prop :=
  let primes := (List.range 312).filter fun n => decide (2 ≤ n) && (List.range n).all fun d => decide (d < 2) || n % d != 0
  primes.length = 64 ∧
  roundConstants =
    [0x428a2f98#32, 0x71374491#32, 0xb5c0fbcf#32, 0xe9b5dba5#32, 0x3956c25b#32, 0x59f111f1#32, 0x923f82a4#32, 0xab1c5ed5#32] ++
    [0xd807aa98#32, 0x12835b01#32, 0x243185be#32, 0x550c7dc3#32, 0x72be5d74#32, 0x80deb1fe#32, 0x9bdc06a7#32, 0xc19bf174#32] ++
    [0xe49b69c1#32, 0xefbe4786#32, 0x0fc19dc6#32, 0x240ca1cc#32, 0x2de92c6f#32, 0x4a7484aa#32, 0x5cb0a9dc#32, 0x76f988da#32] ++
    [0x983e5152#32, 0xa831c66d#32, 0xb00327c8#32, 0xbf597fc7#32, 0xc6e00bf3#32, 0xd5a79147#32, 0x06ca6351#32, 0x14292967#32] ++
    [0x27b70a85#32, 0x2e1b2138#32, 0x4d2c6dfc#32, 0x53380d13#32, 0x650a7354#32, 0x766a0abb#32, 0x81c2c92e#32, 0x92722c85#32] ++
    [0xa2bfe8a1#32, 0xa81a664b#32, 0xc24b8b70#32, 0xc76c51a3#32, 0xd192e819#32, 0xd6990624#32, 0xf40e3585#32, 0x106aa070#32] ++
    [0x19a4c116#32, 0x1e376c08#32, 0x2748774c#32, 0x34b0bcb5#32, 0x391c0cb3#32, 0x4ed8aa4a#32, 0x5b9cca4f#32, 0x682e6ff3#32] ++
    [0x748f82ee#32, 0x78a5636f#32, 0x84c87814#32, 0x8cc70208#32, 0x90befffa#32, 0xa4506ceb#32, 0xbef9a3f7#32, 0xc67178f2#32] ∧
  iv256 = #v[0x6A09E667#32, 0xBB67AE85#32, 0x3C6EF372#32, 0xA54FF53A#32,
             0x510E527F#32, 0x9B05688C#32, 0x1F83D9AB#32, 0x5BE0CD19#32] ∧
  iv224 = #v[0xC1059ED8#32, 0x367CD507#32, 0x3070DD17#32, 0xF70E5939#32,
             0xFFC00B31#32, 0x68581511#32, 0x64F98FA7#32, 0xBEFA4FA4#32] ∧
  (∀ t, t < 64 → ∃ c, c ^ 3 ≤ primes.getD t 0 * 2 ^ 96 ∧ primes.getD t 0 * 2 ^ 96 < (c + 1) ^ 3 ∧
    roundConstants.getD t 0 = BitVec.ofNat 32 c) ∧
  (∀ i : Fin 8, ∃ c, c ^ 2 ≤ primes.getD i.val 0 * 2 ^ 64 ∧ primes.getD i.val 0 * 2 ^ 64 < (c + 1) ^ 2 ∧
    iv256[i] = BitVec.ofNat 32 c) ∧
  (∀ i : Fin 8, ∃ c, c ^ 2 ≤ primes.getD (i.val + 8) 0 * 2 ^ 128 ∧ primes.getD (i.val + 8) 0 * 2 ^ 128 < (c + 1) ^ 2 ∧
    iv224[i] = BitVec.ofNat 32 c)

/-- 41_compression.md R152 to R156: the compression is the one the recurrences define. There are a schedule and a sequence of
working variables that obey them at every index, and the result is the feed-forward of the last; with R156's worked example. -/
def Obligations.CompressObeysTheRecurrences : Prop :=
  ∀ (h : Vector Word 8) (m : Vector Word 16), ∃ (w : Nat → Word) (v : Nat → Working),
    (∀ t : Fin 16, w t = m[t]) ∧
    (∀ t, 16 ≤ t → t < 64 →
      w t = smallSigma1 (w (t - 2)) + w (t - 7) + smallSigma0 (w (t - 15)) + w (t - 16)) ∧
    v 0 = ⟨h[0], h[1], h[2], h[3], h[4], h[5], h[6], h[7]⟩ ∧
    (∀ t, t < 64 →
      let x := v t
      let t1 := x.h + bigSigma1 x.e + ch x.e x.f x.g + roundConstants.getD t 0 + w t
      let t2 := bigSigma0 x.a + maj x.a x.b x.c
      v (t + 1) = ⟨t1 + t2, x.a, x.b, x.c, x.d + t1, x.e, x.f, x.g⟩) ∧
    compress h m = #v[h[0] + (v 64).a, h[1] + (v 64).b, h[2] + (v 64).c, h[3] + (v 64).d,
                      h[4] + (v 64).e, h[5] + (v 64).f, h[6] + (v 64).g, h[7] + (v 64).h] ∧
    compress iv256 #v[0x61626380#32, 0, 0, 0, 0, 0, 0, 0, 0, 0, 0, 0, 0, 0, 0, 0x00000018#32] =
      #v[0xBA7816BF#32, 0x8F01CFEA#32, 0x414140DE#32, 0x5DAE2223#32,
         0xB00361A3#32, 0x96177A9C#32, 0xB410FF61#32, 0xF20015AD#32]

/-- 41_compression.md R175: completion happens exactly while busy, once for each acceptance, and does what the rule says; no host
step changes its inputs before it; a reset before it abandons it. The model's own: that an engine event can come while idle and then
changes nothing (log entry 1), and that the port is quiet after an engine event (log entry 4). -/
def Obligations.CompletionStepOfTheEngine : Prop :=
  ∀ (s : State) (rest : List Event), s.inputs = .engine :: rest →
    (s.status.busy = true →
      let t := { s with h := compress s.h s.m, status := { s.status with busy := false, done := true },
                        response := .quiet, inputs := rest }
      step s = .next t ∧ (s.ctrl.doneIe = true → t.irq = true) ∧
      (∀ e u, e.fromHost = true → takeEvent e s = .next u → u.h = s.h ∧ u.m = s.m ∧ u.status.busy = true) ∧
      takeEvent .engine t = .next t ∧
      (∀ d, ∃ u w, takeEvent (.reset d) s = .next u ∧ takeEvent .engine u = .next w ∧
        w.h = Vector.replicate 8 0 ∧ w.status.done = false)) ∧
    (s.status.busy = false → step s = .next { s with response := .quiet, inputs := rest })

/-- 10_state.md R42, 41_compression.md R175: whatever transactions the host makes between an acceptance and the completion,
H and M stay, and the completion computes from their values at the acceptance. -/
def Obligations.CompressionSurvivesHostInterference : Prop :=
  ∀ (s : State) (host rest : List Event), s.status.busy = true → (∀ e ∈ host, e.fromHost = true) →
    s.inputs = host ++ .engine :: rest →
    ∃ t u, stateAfter host.length s = some t ∧ t.h = s.h ∧ t.m = s.m ∧ t.status.busy = true ∧
      stateAfter (host.length + 1) s = some u ∧ u.h = compress s.h s.m ∧ u.m = s.m ∧
      u.status.busy = false ∧ u.status.done = true ∧ u.inputs = rest

/-- 70_reset_and_hazards.md R290, progress: once the outside events run out, a compression in flight completes. That the
engine steps when no event is pending is the model's form of weak fairness (log entry 2). -/
def Obligations.CompressionCompletesWhenInputsRunOut : Prop :=
  ∀ s : State, s.status.busy = true → (∀ e ∈ s.inputs, e.fromHost = true) →
    ∃ t, stateAfter (s.inputs.length + 1) s = some t ∧ t.h = compress s.h s.m ∧ t.m = s.m ∧
      t.status.busy = false ∧ t.status.done = true

/-- 20_memory.md R72, 70_reset_and_hazards.md R290: a host that polls STATUS reads BUSY = 1 any number of times, then BUSY = 0 and
DONE = 1, and H then holds the new value. -/
def Obligations.PollingSeesBusyThenTheResult : Prop :=
  ∀ (s : State) (polls : Nat) (rest : List Event), s.status.busy = true →
    s.inputs = List.replicate polls readStatus ++ .engine :: readStatus :: rest →
    ∃ before r w t, trace (polls + 2) s = some (before ++ [r, .data w], t) ∧ before.length = polls ∧
      (∀ r ∈ before, ∃ x : Word, r = .data x ∧ x.getLsbD 0 = true) ∧
      w.getLsbD 0 = false ∧ w.getLsbD 1 = true ∧ t.h = compress s.h s.m ∧ t.m = s.m ∧ t.inputs = rest

/-! ## Reset -/

/-- 10_state.md R47: the state after a reset event, from every state, and the reset state itself. -/
def Obligations.ResetGivesEveryResetValue : Prop :=
  State.reset.h = Vector.replicate 8 0 ∧ State.reset.m = Vector.replicate 16 0 ∧
  State.reset.status = ⟨false, false, false, false, false⟩ ∧ State.reset.ctrl = ⟨false, false⟩ ∧
  State.reset.irq = false ∧
  ∀ (s : State) (d : Option Transaction) (rest : List Event), s.inputs = .reset d :: rest →
    ∃ t, step s = .next t ∧ t.inputs = rest ∧
      t.h = Vector.replicate 8 0 ∧ t.m = Vector.replicate 16 0 ∧
      t.status = ⟨false, false, false, false, false⟩ ∧ t.ctrl = ⟨false, false⟩ ∧ t.irq = false ∧
      t.window 0x0C#8 = 0x01104020#32 ∧ t.h ≠ initialHash .sha256 ∧ t.h ≠ initialHash .sha224

/-- 70_reset_and_hazards.md R281: a write in progress at reset is lost, a read returns some value, and the next transaction
sees the reset state. -/
def Obligations.TransactionInProgressAtResetIsLost : Prop :=
  ∀ (s : State) (x : Transaction) (rest : List Event), s.inputs = .reset (some x) :: rest →
    (tdWe x.td = true → ∃ r, step s = .next { State.reset with inputs := rest, draws := s.draws, response := r }) ∧
    (tdWe x.td = false → ∃ v n,
      step s = .next { State.reset with inputs := rest, draws := n, response := .data v })

/-- 70_reset_and_hazards.md R282: reset abandons a compression in flight for good, and nothing else but its completion ends it. -/
def Obligations.OnlyResetAbortsACompression : Prop :=
  ∀ s : State, s.status.busy = true →
    (∀ d n, ∃ t u, takeEvent (.reset d) s = .next t ∧
      t.h = Vector.replicate 8 0 ∧ t.m = Vector.replicate 16 0 ∧ t.status = ⟨false, false, false, false, false⟩ ∧
      t.ctrl = ⟨false, false⟩ ∧
      stateAfter n { t with inputs := List.replicate n .engine } = some u ∧
      u.h = Vector.replicate 8 0 ∧ u.m = Vector.replicate 16 0 ∧ u.status.busy = false ∧ u.status.done = false) ∧
    (∀ e t, takeEvent e s = .next t → t.status.busy = false → e = .engine ∨ ∃ d, e = .reset d)

/-! ## The whole machine -/

/-- The reset state meets the invariant. -/
def Obligations.ResetMeetsTheInvariant : Prop := State.reset.Inv

/-- BUSY and DONE are never both 1: every step keeps it, from every state that meets it. -/
def Obligations.StepKeepsBusyAndDoneApart : Prop := ∀ s t : State, s.Inv → step s = .next t → t.Inv

/-- 10_state.md R31, R34: the only steps that change H, and the only steps that change M. COMPRESS never changes M (R36). -/
def Obligations.OnlyNamedWritersChangeHashAndBlock : Prop :=
  ∀ s t : State, step s = .next t →
    (t.h ≠ s.h →
      ((fetch s).1 = .engine ∧ s.status.busy = true) ∨ (∃ d, (fetch s).1 = .reset d) ∨
      (s.status.busy = false ∧
        ((∃ (i : Fin 8) (v : Word), (fetch s).1 = .bus ⟨writeTd (offsetOfH i), v⟩ ∧ t.h = s.h.set i v) ∨
         ∃ v ∈ [0x00000001#32, 0x00000011#32, 0x00000003#32], (fetch s).1 = .bus ⟨0x1F00#13, v⟩))) ∧
    (t.m ≠ s.m →
      (∃ d, (fetch s).1 = .reset d) ∨
      (s.status.busy = false ∧
        ((∃ (j : Fin 16) (v : Word), (fetch s).1 = .bus ⟨writeTd (offsetOfM j), v⟩ ∧ t.m = s.m.set j v) ∨
         (fetch s).1 = .bus ⟨0x1F00#13, 0x00000003#32⟩)))

/-- 70_reset_and_hazards.md R285, R286: a transaction that respects the rules for host programs raises no error, and what it
reads is no free value. -/
def Obligations.HazardFreeTransactionRaisesNothing : Prop :=
  ∀ (x : Transaction) (s : State), hazardFree x s = true →
    ∃ t, takeEvent (.bus x) s = .next t ∧ t.draws = s.draws ∧
      (t.status.errIll = true → s.status.errIll = true) ∧ (t.status.errBusy = true → s.status.errBusy = true) ∧
      (t.status.errAcc = true → s.status.errAcc = true)

/-! ## Host obligations -/

/-- 43_padding_and_digest.md R221: the padding's form, its length, and that k is the smallest; R223's block count and boundary. -/
def Obligations.PaddingFillsWholeBlocks : Prop :=
  ∀ msg : List Byte,
    pad msg = msg ++ [0x80#8] ++ List.replicate (padZeros msg.length) 0 ++ be64 (8 * msg.length) ∧
    padZeros msg.length ≤ 63 ∧ (padZeros msg.length + msg.length) % 64 = 55 ∧
    (∀ k, (msg.length + 1 + k + 8) % 64 = 0 → padZeros msg.length ≤ k) ∧
    (be64 (8 * msg.length)).length = 8 ∧
    (pad msg).length = 64 * blockCount msg.length ∧
    (blockCount msg.length = msg.length / 64 + 1 ↔ msg.length % 64 ≤ 55)

/-- 43_padding_and_digest.md R222: the last two words of the last block are the length in bits. That they are its low 64 bits for a
message past R224's limit, which the host must not hash, is the model's choice (log entry 23). -/
def Obligations.LastBlockEndsWithTheBitLength : Prop :=
  ∀ msg : List Byte, ∃ (front : List (Vector Word 16)) (b : Vector Word 16),
    (pad msg).drop ((pad msg).length - 8) = be64 (8 * msg.length) ∧
    messageBlocks msg = front ++ [b] ∧
    b[14] = BitVec.ofNat 32 (8 * msg.length / 2 ^ 32) ∧ b[15] = BitVec.ofNat 32 (8 * msg.length)

/-- 43_padding_and_digest.md R220, R227, R228: a padded message is consumed in blocks of 64 bytes; message bytes go into words, and
state words into digest bytes, most significant first; SHA-224's digest is the first 28 bytes. That a missing byte of a list shorter than a
block counts as 0 is the model's choice (log entry 24). -/
def Obligations.BytesAreBigEndianInWords : Prop :=
  (∀ (msg : List Byte) (n : Nat), n < blockCount msg.length →
    (messageBlocks msg)[n]? = some (parseBlock (((pad msg).drop (64 * n)).take 64))) ∧
  (∀ (b : List Byte) (j : Fin 16) (k : Nat), k < 4 →
    (parseBlock b)[j].extractLsb' (24 - 8 * k) 8 = b.getD (4 * j.val + k) 0) ∧
  (∀ (h : Vector Word 8) (i : Fin 8) (k : Nat), k < 4 →
    (serializeDigest .sha256 h)[4 * i.val + k]? = some (h[i].extractLsb' (24 - 8 * k) 8)) ∧
  (∀ h : Vector Word 8, (serializeDigest .sha256 h).length = 32 ∧
    serializeDigest .sha224 h = (serializeDigest .sha256 h).take 28 ∧ (serializeDigest .sha224 h).length = 28)

/-- 43_padding_and_digest.md R229: the digest has its variant's length, whatever the message. -/
def Obligations.DigestLengthIsFixed : Prop :=
  ∀ msg : List Byte, (messageDigest .sha256 msg).length = 32 ∧ (messageDigest .sha224 msg).length = 28

/-- 43_padding_and_digest.md R230: the empty message. -/
def Obligations.EmptyMessageDigest : Prop :=
  messageBlocks [] = [#v[0x80000000#32, 0, 0, 0, 0, 0, 0, 0, 0, 0, 0, 0, 0, 0, 0, 0]] ∧
  messageDigest .sha256 [] =
    [0xe3#8, 0xb0#8, 0xc4#8, 0x42#8, 0x98#8, 0xfc#8, 0x1c#8, 0x14#8, 0x9a#8, 0xfb#8, 0xf4#8, 0xc8#8, 0x99#8, 0x6f#8, 0xb9#8, 0x24#8,
     0x27#8, 0xae#8, 0x41#8, 0xe4#8, 0x64#8, 0x9b#8, 0x93#8, 0x4c#8, 0xa4#8, 0x95#8, 0x99#8, 0x1b#8, 0x78#8, 0x52#8, 0xb8#8, 0x55#8]

/-- 43_padding_and_digest.md R225: the host's procedure, run on the machine from any idle state, ends with H = the chain of the
message's blocks, the last reads give its words, and no error bit is raised; however long each compression takes. -/
def Obligations.HostProcedureComputesTheDigest : Prop :=
  ∀ (v : Variant) (msg : List Byte) (polls : List Nat) (s : State) (rest : List Event),
    s.status.busy = false → lengthFits msg = true → polls.length = blockCount msg.length →
    s.inputs = hashEvents v msg polls ++ rest →
    ∃ (before : List Response) (words : List Word) (t : State),
      trace (hashEvents v msg polls).length s = some (before ++ words.map Response.data, t) ∧
      words.length = digestWords v ∧ words.flatMap bytesBE = messageDigest v msg ∧
      t.h = chain (initialHash v) (messageBlocks msg) ∧ t.inputs = rest ∧ t.status.busy = false ∧ t.status.done = true ∧
      t.status.errIll = s.status.errIll ∧ t.status.errBusy = s.status.errBusy ∧ t.status.errAcc = s.status.errAcc

/-- 43_padding_and_digest.md R225: the procedure as a script, beside the engine. A message that is too long has no script. Else,
from any idle state and in every interleaving of host and engine turns, once the script returns a digest it is the message's, H is
the chain of its blocks, and no error bit has changed; and some interleaving makes it return. An engine turn may come while idle (log
entry 1). -/
def Obligations.HashScriptReturnsTheDigest : Prop :=
  ∀ (v : Variant) (msg : List Byte) (s : State), s.status.busy = false →
    (2 ^ 64 ≤ 8 * msg.length → hashScript v msg = .error .overflow) ∧
    (8 * msg.length < 2 ^ 64 → ∃ script, hashScript v msg = .ok script ∧
      (∀ turns q t d, runScript turns (.start script) s = some (q, t) → q.returned v = some d →
        d = messageDigest v msg ∧ t.h = chain (initialHash v) (messageBlocks msg) ∧
        t.status.errIll = s.status.errIll ∧ t.status.errBusy = s.status.errBusy ∧ t.status.errAcc = s.status.errAcc) ∧
      (∃ turns q t d, runScript turns (.start script) s = some (q, t) ∧ q.returned v = some d))

/-- 43_padding_and_digest.md R225, R226: a message that arrives in pieces, its blocks compressed as they fill, presents the very
script of the whole message, so that the engine sees no difference, and returns its digest; fewer than 64 bytes stay with the host
after each update, and an update of no bytes presents nothing. -/
def Obligations.PiecewiseHashingGivesTheSameDigest : Prop :=
  (∀ (v : Variant) (pieces : List (List Byte)), lengthFits pieces.flatten = true →
    ∃ script c, hashInPieces v pieces = .ok (script, c) ∧ c.finalized = true ∧
      hashScript v pieces.flatten = .ok script ∧
      ∀ turns s q t d, s.status.busy = false → runScript turns (.start script) s = some (q, t) → q.returned v = some d →
        d = messageDigest v pieces.flatten) ∧
  (∀ (c d : HashContext) (bytes : List Byte) (script : List Stmt), updateContext c bytes = .ok (script, d) →
    d.buffer.length < 64) ∧
  (∀ c : HashContext, c.finalized = false → c.buffer.length < 64 → 8 * c.total < 2 ^ 64 →
    updateContext c [] = .ok ([], c))

/-- 30_encoding.md R99, R100: the expansions present the transactions of the procedure, in order; a WAIT loop goes round while
STATUS reads BUSY = 1 and leaves when it reads 0, and changes no register. Where the loop's label stands once, its target is the rule's;
for a label that the script holds twice or not at all it is the model's choice (log entry 19). -/
def Obligations.ScriptsPresentTheProcedure : Prop :=
  (∀ b : List Byte, (Pseudo.ldblk b).expand.filterMap Stmt.event = loadBlock (parseBlock b)) ∧
  (∀ v : Variant, (Pseudo.rdh (digestWords v)).expand.filterMap Stmt.event = readDigest v) ∧
  (∀ c : Command, (Pseudo.command c).expand.filterMap Stmt.event = [writeCommand c]) ∧
  (∀ l : Nat, (Pseudo.wait l).expand.filterMap Stmt.event = [readStatus]) ∧
  Pseudo.clrst.expand.filterMap Stmt.event = [.bus ⟨0x1F04#13, 0x0000001E#32⟩] ∧
  ∀ (p : ScriptHost) (s : State) (l : Nat), p.script[p.position]? = some (.rd .status) →
    p.script[p.position + 1]? = some (.bnz .status 0 l) →
    ∃ q t, hostTurn p s = (q, .next t) ∧
      t.h = s.h ∧ t.m = s.m ∧ t.status = s.status ∧ t.ctrl = s.ctrl ∧ t.inputs = s.inputs ∧
      ∃ r, hostTurn q t = (r, .next t) ∧
        r.position = if s.status.busy then labelPosition p.script l else p.position + 2

/-- 43_padding_and_digest.md R224, R226: the host's usage errors; none gives a digest or an engine access. That the overflow is
raised by the update that reaches it, and that the wrong finalize form is an extendable-output finalize, is the model's reading (log
entry 14); that an update of no bytes on a finalized context is an error too is its choice (log entry 20). -/
def Obligations.UsageErrorsGiveNoDigest : Prop :=
  (∀ v msg, 2 ^ 64 ≤ 8 * msg.length → hashScript v msg = .error .overflow) ∧
  (∀ (c : HashContext) (bytes : List Byte), c.finalized = false → 2 ^ 64 ≤ 8 * (c.total + bytes.length) →
    updateContext c bytes = .error .overflow) ∧
  (∀ (c : HashContext) (bytes : List Byte) (extendable : Bool), c.finalized = true →
    updateContext c bytes = .error .alreadyFinalized ∧ finalizeContext c extendable = .error .alreadyFinalized) ∧
  (∀ c : HashContext, c.finalized = false → finalizeContext c true = .error .wrongFinalizeForm) ∧
  (∀ name : String, name ≠ "SHA256" → name ≠ "SHA224" → newContext name = .error .invalidAlgorithm)
end

