-- ==== Sys2Proof/Laws/Compression.lean ====
section
/-! SUPPORT. The bits of a rotation and a shift; the schedule and the rounds by their recurrences. -/

namespace Sys2Proof.Machine

theorem getLsbD_rotr (n : Nat) (x : Word) (h1 : 1 ≤ n) (h2 : n ≤ 31) (k : Nat) (hk : k < 32) :
    (rotr n x).getLsbD k = x.getLsbD ((k + n) % 32) := by
  simp only [rotr, BitVec.getLsbD_or, BitVec.getLsbD_ushiftRight, BitVec.getLsbD_shiftLeft]
  by_cases h : k + n < 32
  · rw [Nat.mod_eq_of_lt h]
    simp [show k < 32 - n by omega, Nat.add_comm]
  · have : (k + n) % 32 = k - (32 - n) := by omega
    rw [this]
    have : x.getLsbD (n + k) = false := BitVec.getLsbD_of_ge _ _ (by omega)
    simp [this, hk, show ¬ k < 32 - n by omega]

theorem getLsbD_shr (n : Nat) (x : Word) (k : Nat) : (shr n x).getLsbD k = x.getLsbD (k + n) := by
  rw [shr, BitVec.getLsbD_ushiftRight, Nat.add_comm]

theorem scheduleExtend_length (n : Nat) (w : List Word) : (scheduleExtend n w).length = w.length + n := by
  induction n generalizing w with
  | zero => rfl
  | succ n ih => simp [scheduleExtend, ih]; omega

theorem schedule_length (m : Vector Word 16) : (schedule m).length = 64 := by
  simp [schedule, scheduleExtend_length, Config.scheduleWords, Config.blockWords]

theorem scheduleExtend_prefix (n : Nat) (w : List Word) : ∃ r, scheduleExtend n w = w ++ r := by
  induction n generalizing w with
  | zero => exact ⟨[], by simp [scheduleExtend]⟩
  | succ n ih =>
    obtain ⟨r, hr⟩ := ih (w ++ [scheduleNext w])
    exact ⟨_, by rw [scheduleExtend, hr, List.append_assoc]⟩

theorem scheduleExtend_getD (n : Nat) (w : List Word) {t : Nat} (h : t < w.length) :
    (scheduleExtend n w).getD t 0 = w.getD t 0 := by
  obtain ⟨r, hr⟩ := scheduleExtend_prefix n w
  rw [hr, List.getD_append _ _ _ _ h]

/-- Every word past the first sixteen obeys the recurrence. -/
theorem scheduleExtend_next (n : Nat) (w : List Word) (t : Nat) (h1 : w.length ≤ t) (h2 : t < w.length + n)
    (h16 : 16 ≤ w.length) :
    let s := scheduleExtend n w
    s.getD t 0 = smallSigma1 (s.getD (t - 2) 0) + s.getD (t - 7) 0 + smallSigma0 (s.getD (t - 15) 0) + s.getD (t - 16) 0 := by
  induction n generalizing w with
  | zero => omega
  | succ n ih =>
    rcases Nat.lt_or_ge w.length t with h | h
    · exact ih (w ++ [scheduleNext w]) (by simp; omega) (by simp; omega) (by simp; omega)
    · obtain rfl : t = w.length := by omega
      have hp : ∀ d, 0 < d → d ≤ 16 → (scheduleExtend (n + 1) w).getD (w.length - d) 0 = w.getD (w.length - d) 0 :=
        fun d h1 h2 => scheduleExtend_getD _ _ (by omega)
      simp only [hp 2, hp 7, hp 15, hp 16, Nat.reduceLT, Nat.reduceLeDiff, Nat.le_refl]
      rw [scheduleExtend, scheduleExtend_getD _ _ (by simp), List.getD_append_right _ _ _ _ (by omega)]
      simp [scheduleNext]

/-- The working variables after n rounds. -/
def workingAfter (v : Working) (w : List Word) (n : Nat) : Working :=
  ((roundConstants.zip w).take n).foldl compressionRound v

theorem workingAfter_succ (v : Working) (w : List Word) (hw : w.length = 64) (n : Nat) (h : n < 64) :
    workingAfter v w (n + 1) = compressionRound (workingAfter v w n) (roundConstants.getD n 0, w.getD n 0) := by
  have hk : roundConstants.length = 64 := rfl
  have hl : (roundConstants.zip w).length = 64 := by simp [hw, hk]
  unfold workingAfter
  rw [List.take_add_one, List.foldl_append, List.getElem?_eq_getElem (by omega)]
  simp [List.getElem_zip, List.getElem?_eq_getElem (hk ▸ h : n < roundConstants.length),
    List.getElem?_eq_getElem (hw ▸ h : n < w.length)]

theorem workingAfter_all (v : Working) (w : List Word) (hw : w.length = 64) :
    workingAfter v w 64 = compressionRounds v w := by
  rw [workingAfter, List.take_of_length_le (by simp [hw, show roundConstants.length = 64 from rfl]), compressionRounds]

end Sys2Proof.Machine
end

