-- ==== Sys2Proof/Laws/Decode.lean ====
section
/-! SUPPORT. What the decoder does: a command word decodes exactly if it is one of the five, and a descriptor decodes exactly
if its access is legal, to the row of its offset (`Decoded`). -/

namespace Sys2Proof.Laws

/-- The match value of the row a descriptor matches first; a row is known by it. -/
def rowValue (td : Td) : Option Td := (tdRows.find? (·.matches td)).map (·.value)

theorem tdRows_values_nodup : (tdRows.map (·.value)).Nodup := by decide

theorem decodeTransaction_of_row {td : Td} {r : TdRow} (hr : r ∈ tdRows) (h : rowValue td = some r.value) (v : Word) :
    decodeTransaction td v = .ok (r.make (tdOff td) v) := by
  obtain ⟨q, hq, hv⟩ : ∃ q, tdRows.find? (·.matches td) = some q ∧ q.value = r.value := by
    simpa [rowValue] using h
  have : q = r := List.inj_on_of_nodup_map tdRows_values_nodup (List.mem_of_find?_eq_some hq) hr hv
  simp [decodeTransaction, hq, this]

theorem tdRows_fix_the_legal_bits :
    ∀ r ∈ tdRows, r.mask &&& 0x1E03#13 = 0x1E03#13 ∧ r.value &&& 0x1E03#13 = 0x1E00#13 := by decide

theorem makeTd_fields (be : BitVec 4) (we : Bool) (off : Offset) :
    tdBe (makeTd be we off) = be ∧ tdWe (makeTd be we off) = we ∧ tdOff (makeTd be we off) = off := by
  refine ⟨?_, ?_, ?_⟩
  · apply BitVec.eq_of_getLsbD_eq; intro i hi
    simp only [tdBe, makeTd, BitVec.getLsbD_extractLsb', BitVec.getLsbD_append]
    simp [hi]; grind
  · simp only [tdWe, makeTd, BitVec.getLsbD_append]
    simp
  · apply BitVec.eq_of_getLsbD_eq; intro i hi
    simp only [tdOff, makeTd, BitVec.getLsbD_extractLsb', BitVec.getLsbD_append]
    simp [hi]

theorem makeTd_of_fields (td : Td) : makeTd (tdBe td) (tdWe td) (tdOff td) = td := by
  apply BitVec.eq_of_getLsbD_eq; intro i hi
  simp only [tdBe, tdOff, tdWe, makeTd, BitVec.getLsbD_extractLsb', BitVec.getLsbD_append]
  interval_cases i <;> simp

theorem tdLegal_iff_bits (td : Td) : tdLegal td = true ↔ td &&& 0x1E03#13 = 0x1E00#13 := by
  rw [← makeTd_of_fields td]
  generalize tdBe td = be; generalize tdWe td = we; generalize tdOff td = off
  simp only [tdLegal, makeTd_fields, Bool.and_eq_true, beq_iff_eq]
  constructor
  · rintro ⟨rfl, h⟩
    have h0 : off[0] = false := by simpa using congrArg (·.getLsbD 0) h
    have h1 : off[1] = false := by simpa using congrArg (·.getLsbD 1) h
    apply BitVec.eq_of_getLsbD_eq; intro i hi
    simp only [makeTd, BitVec.getLsbD_and, BitVec.getLsbD_append]
    interval_cases i <;> simp <;> assumption
  · intro h
    constructor <;> apply BitVec.eq_of_getLsbD_eq <;> intro i hi
    · have := congrArg (·.getLsbD (i + 9)) h
      simp only [makeTd, BitVec.getLsbD_and, BitVec.getLsbD_append] at this
      interval_cases i <;> simp_all
    · have := congrArg (·.getLsbD i) h
      simp only [makeTd, BitVec.getLsbD_and, BitVec.getLsbD_append] at this
      interval_cases i <;> simp_all

theorem tdLegal_of_row_matches {r : TdRow} (hr : r ∈ tdRows) {td : Td} (h : r.matches td = true) : tdLegal td = true := by
  obtain ⟨h1, h2⟩ := tdRows_fix_the_legal_bits r hr
  have h3 : td &&& r.mask = r.value := by simpa [TdRow.matches] using h
  rw [tdLegal_iff_bits, ← h2, ← h3, BitVec.and_assoc, h1]

/-- A legal descriptor is {1111, WE, n, 00}. -/
theorem tdLegal_form {td : Td} (h : tdLegal td = true) :
    ∃ n : BitVec 6, td = makeTd 0b1111#4 (tdWe td) (n ++ 0#2) := by
  obtain ⟨h1, h2⟩ : tdBe td = 0b1111#4 ∧ (tdOff td).extractLsb' 0 2 = 0b00#2 := by simpa [tdLegal] using h
  refine ⟨(tdOff td).extractLsb' 2 6, ?_⟩
  conv_lhs => rw [← makeTd_of_fields td, h1]
  congr 1
  apply BitVec.eq_of_getLsbD_eq; intro i hi
  have := congrArg (·.getLsbD i) h2
  simp only [BitVec.getLsbD_append, BitVec.getLsbD_extractLsb'] at this ⊢
  interval_cases i <;> simp_all

theorem decodeTransaction_illegal {td : Td} (h : tdLegal td = false) (v : Word) :
    ∃ r, decodeTransaction td v = .error r := by
  have : tdRows.find? (·.matches td) = none := by
    simp only [List.find?_eq_none]
    intro r hr hm
    simp [tdLegal_of_row_matches hr hm] at h
  simp only [decodeTransaction, this]
  split_ifs <;> exact ⟨_, rfl⟩

theorem legal_rows : ∀ (we : Bool) (n : BitVec 6),
    let td := makeTd 0b1111#4 we (n ++ 0#2)
    let off := tdOff td
    (we = false ∧
      ((off = 0x00#8 ∧ rowValue td = some 0x1E00#13) ∨ (off = 0x04#8 ∧ rowValue td = some 0x1E04#13) ∨
       (off = 0x08#8 ∧ rowValue td = some 0x1E08#13) ∨ (off = 0x0C#8 ∧ rowValue td = some 0x1E0C#13) ∨
       (Offset.reservedLo off = true ∧ rowValue td = some 0x1E10#13) ∨
       (off = offsetOfH (indexOfH off) ∧ rowValue td = some 0x1E20#13) ∨
       (off = offsetOfM (indexOfM off) ∧ rowValue td = some 0x1E40#13) ∨
       (Offset.reservedHi off = true ∧ rowValue td = some 0x1E80#13))) ∨
    (we = true ∧
      ((off = 0x00#8 ∧ rowValue td = some 0x1F00#13) ∨ (off = 0x04#8 ∧ rowValue td = some 0x1F04#13) ∨
       (off = 0x08#8 ∧ rowValue td = some 0x1F08#13) ∨ (off = 0x0C#8 ∧ rowValue td = some 0x1F0C#13) ∨
       (Offset.reservedLo off = true ∧ rowValue td = some 0x1F10#13) ∨
       (off = offsetOfH (indexOfH off) ∧ rowValue td = some 0x1F20#13) ∨
       (off = offsetOfM (indexOfM off) ∧ rowValue td = some 0x1F40#13) ∨
       (Offset.reservedHi off = true ∧ rowValue td = some 0x1F80#13))) := by
  decide +kernel

/-- What the decoder makes of a descriptor: an error exactly where the access is illegal, else the row of its offset. -/
inductive Decoded (td : Td) (v : Word) : Except DecodeError Instr → Prop
  | illegal (r : DecodeError) (h : tdLegal td = false) : Decoded td v (.error r)
  | rdCmd (h : td = readTd 0x00#8) : Decoded td v (.ok .rdCmd)
  | wrCmd (h : td = writeTd 0x00#8) : Decoded td v (.ok (.wrCmd v))
  | rdStatus (h : td = readTd 0x04#8) : Decoded td v (.ok .rdStatus)
  | wrStatus (h : td = writeTd 0x04#8) : Decoded td v (.ok (.wrStatus v))
  | rdCtrl (h : td = readTd 0x08#8) : Decoded td v (.ok .rdCtrl)
  | wrCtrl (h : td = writeTd 0x08#8) : Decoded td v (.ok (.wrCtrl v))
  | rdInfo (h : td = readTd 0x0C#8) : Decoded td v (.ok .rdInfo)
  | wrInfo (h : td = writeTd 0x0C#8) : Decoded td v (.ok (.wrInfo v))
  | rdRsvdLo (off : Offset) (hr : Offset.reservedLo off = true) (h : td = readTd off) : Decoded td v (.ok (.rdRsvdLo off))
  | wrRsvdLo (off : Offset) (hr : Offset.reservedLo off = true) (h : td = writeTd off) : Decoded td v (.ok (.wrRsvdLo off v))
  | rdH (i : Fin 8) (h : td = readTd (offsetOfH i)) : Decoded td v (.ok (.rdH i))
  | wrH (i : Fin 8) (h : td = writeTd (offsetOfH i)) : Decoded td v (.ok (.wrH i v))
  | rdM (j : Fin 16) (h : td = readTd (offsetOfM j)) : Decoded td v (.ok (.rdM j))
  | wrM (j : Fin 16) (h : td = writeTd (offsetOfM j)) : Decoded td v (.ok (.wrM j v))
  | rdRsvdHi (off : Offset) (hr : Offset.reservedHi off = true) (h : td = readTd off) : Decoded td v (.ok (.rdRsvdHi off))
  | wrRsvdHi (off : Offset) (hr : Offset.reservedHi off = true) (h : td = writeTd off) : Decoded td v (.ok (.wrRsvdHi off v))

theorem decodeTransaction_decoded (td : Td) (v : Word) : Decoded td v (decodeTransaction td v) := by
  cases hl : tdLegal td with
  | false =>
    obtain ⟨r, hr⟩ := decodeTransaction_illegal hl v
    exact hr ▸ .illegal r hl
  | true =>
    obtain ⟨n, hn⟩ := tdLegal_form hl
    have h := legal_rows (tdWe td) n
    simp only [← hn] at h
    have hm := makeTd_of_fields td
    have hb : tdBe td = 0b1111#4 := by rw [hn]; exact (makeTd_fields _ _ _).1
    rw [hb] at hm
    rcases h with ⟨hw, h⟩ | ⟨hw, h⟩ <;> rw [hw] at hm <;>
      rcases h with ⟨ho, h⟩ | ⟨ho, h⟩ | ⟨ho, h⟩ | ⟨ho, h⟩ | ⟨ho, h⟩ | ⟨ho, h⟩ | ⟨ho, h⟩ | ⟨ho, h⟩
    · rw [decodeTransaction_of_row (r := ⟨0x1E00#13, 0x1FFF#13, fun _ _ => .rdCmd⟩) (by simp [tdRows, systemRows, dataRows]) h]
      exact .rdCmd (by rw [← hm, ho]; rfl)
    · rw [decodeTransaction_of_row (r := ⟨0x1E04#13, 0x1FFF#13, fun _ _ => .rdStatus⟩) (by simp [tdRows, systemRows, dataRows]) h]
      exact .rdStatus (by rw [← hm, ho]; rfl)
    · rw [decodeTransaction_of_row (r := ⟨0x1E08#13, 0x1FFF#13, fun _ _ => .rdCtrl⟩) (by simp [tdRows, systemRows, dataRows]) h]
      exact .rdCtrl (by rw [← hm, ho]; rfl)
    · rw [decodeTransaction_of_row (r := ⟨0x1E0C#13, 0x1FFF#13, fun _ _ => .rdInfo⟩) (by simp [tdRows, systemRows, dataRows]) h]
      exact .rdInfo (by rw [← hm, ho]; rfl)
    · rw [decodeTransaction_of_row (r := ⟨0x1E10#13, 0x1FF3#13, fun off _ => .rdRsvdLo off⟩) (by simp [tdRows, systemRows, dataRows]) h]
      exact .rdRsvdLo _ ho hm.symm
    · rw [decodeTransaction_of_row (r := ⟨0x1E20#13, 0x1FE3#13, fun off _ => .rdH (indexOfH off)⟩) (by simp [tdRows, systemRows, dataRows]) h]
      exact .rdH _ (by rw [← ho]; exact hm.symm)
    · rw [decodeTransaction_of_row (r := ⟨0x1E40#13, 0x1FC3#13, fun off _ => .rdM (indexOfM off)⟩) (by simp [tdRows, systemRows, dataRows]) h]
      exact .rdM _ (by rw [← ho]; exact hm.symm)
    · rw [decodeTransaction_of_row (r := ⟨0x1E80#13, 0x1F83#13, fun off _ => .rdRsvdHi off⟩) (by simp [tdRows, systemRows, dataRows]) h]
      exact .rdRsvdHi _ ho hm.symm
    · rw [decodeTransaction_of_row (r := ⟨0x1F00#13, 0x1FFF#13, fun _ v => .wrCmd v⟩) (by simp [tdRows, systemRows, dataRows]) h]
      exact .wrCmd (by rw [← hm, ho]; rfl)
    · rw [decodeTransaction_of_row (r := ⟨0x1F04#13, 0x1FFF#13, fun _ v => .wrStatus v⟩) (by simp [tdRows, systemRows, dataRows]) h]
      exact .wrStatus (by rw [← hm, ho]; rfl)
    · rw [decodeTransaction_of_row (r := ⟨0x1F08#13, 0x1FFF#13, fun _ v => .wrCtrl v⟩) (by simp [tdRows, systemRows, dataRows]) h]
      exact .wrCtrl (by rw [← hm, ho]; rfl)
    · rw [decodeTransaction_of_row (r := ⟨0x1F0C#13, 0x1FFF#13, fun _ v => .wrInfo v⟩) (by simp [tdRows, systemRows, dataRows]) h]
      exact .wrInfo (by rw [← hm, ho]; rfl)
    · rw [decodeTransaction_of_row (r := ⟨0x1F10#13, 0x1FF3#13, fun off v => .wrRsvdLo off v⟩) (by simp [tdRows, systemRows, dataRows]) h]
      exact .wrRsvdLo _ ho hm.symm
    · rw [decodeTransaction_of_row (r := ⟨0x1F20#13, 0x1FE3#13, fun off v => .wrH (indexOfH off) v⟩) (by simp [tdRows, systemRows, dataRows]) h]
      exact .wrH _ (by rw [← ho]; exact hm.symm)
    · rw [decodeTransaction_of_row (r := ⟨0x1F40#13, 0x1FC3#13, fun off v => .wrM (indexOfM off) v⟩) (by simp [tdRows, systemRows, dataRows]) h]
      exact .wrM _ (by rw [← ho]; exact hm.symm)
    · rw [decodeTransaction_of_row (r := ⟨0x1F80#13, 0x1F83#13, fun off v => .wrRsvdHi off v⟩) (by simp [tdRows, systemRows, dataRows]) h]
      exact .wrRsvdHi _ ho hm.symm

/-! ## Command words -/

theorem command_fields (v : Word) :
    v.toNat = commandOp v + 16 * commandVar v + 64 * commandRsv v ∧ commandOp v < 16 ∧ commandVar v < 4 := by
  simp only [commandOp, commandVar, commandRsv, BitVec.extractLsb'_toNat, Nat.shiftRight_eq_div_pow]
  omega

theorem decodeCommand_ok_iff (v : Word) (c : Command) : decodeCommand v = .ok c ↔ v = encodeCommand c := by
  constructor
  · intro h
    obtain ⟨hv, ho, hr⟩ := command_fields v
    apply BitVec.eq_of_toNat_eq
    unfold decodeCommand at h
    split_ifs at h with h1 h2 h3 h4
    · split at h <;> cases h <;> simp_all [encodeCommand]
    · have : commandOp v = 0 ∨ commandOp v = 2 ∨ commandOp v = 3 ∨ commandOp v = 1 := by omega
      rcases this with h5 | h5 | h5 | h5 <;> simp [h5] at h h2 <;> subst h <;> simp_all [encodeCommand]
  · rintro rfl
    rcases c with _ | (_ | _) | _ | _ <;> rfl

theorem decodeCommand_encodeCommand (c : Command) : decodeCommand (encodeCommand c) = .ok c :=
  (decodeCommand_ok_iff _ c).mpr rfl

/-- A word is one of R95's five exactly if it decodes. -/
theorem decodeCommand_isOk_iff (v : Word) : (decodeCommand v).isOk = true ↔
    v ∈ [0x00000000#32, 0x00000001#32, 0x00000011#32, 0x00000002#32, 0x00000003#32] := by
  constructor
  · intro h
    cases hd : decodeCommand v with
    | error e => rw [hd] at h; cases h
    | ok c => rw [(decodeCommand_ok_iff v c).mp hd]; rcases c with _ | (_ | _) | _ | _ <;> decide
  · intro h
    simp only [List.mem_cons, List.not_mem_nil, or_false] at h
    rcases h with rfl | rfl | rfl | rfl | rfl <;> rfl

/-! ## Round trip -/

theorem decodeTransaction_of_rowValue {td : Td} {x : Td} (h : rowValue td = some x) (v : Word) :
    ∀ r ∈ tdRows, r.value = x → decodeTransaction td v = .ok (r.make (tdOff td) v) :=
  fun _ hr hx => decodeTransaction_of_row hr (hx ▸ h) v

theorem rowValue_h : ∀ i : Fin 8, rowValue (readTd (offsetOfH i)) = some 0x1E20#13 ∧
    rowValue (writeTd (offsetOfH i)) = some 0x1F20#13 ∧ indexOfH (offsetOfH i) = i := by decide +kernel

theorem rowValue_m : ∀ j : Fin 16, rowValue (readTd (offsetOfM j)) = some 0x1E40#13 ∧
    rowValue (writeTd (offsetOfM j)) = some 0x1F40#13 ∧ indexOfM (offsetOfM j) = j := by decide +kernel

theorem rowValue_reserved : ∀ off : Offset,
    (Offset.reservedLo off = true → rowValue (readTd off) = some 0x1E10#13 ∧ rowValue (writeTd off) = some 0x1F10#13) ∧
    (Offset.reservedHi off = true → rowValue (readTd off) = some 0x1E80#13 ∧ rowValue (writeTd off) = some 0x1F80#13) := by
  decide +kernel

@[simp] theorem tdOff_readTd (off : Offset) : tdOff (readTd off) = off := (makeTd_fields _ _ _).2.2
@[simp] theorem tdOff_writeTd (off : Offset) : tdOff (writeTd off) = off := (makeTd_fields _ _ _).2.2
@[simp] theorem tdWe_readTd (off : Offset) : tdWe (readTd off) = false := (makeTd_fields _ _ _).2.1
@[simp] theorem tdWe_writeTd (off : Offset) : tdWe (writeTd off) = true := (makeTd_fields _ _ _).2.1
@[simp] theorem tdBe_readTd (off : Offset) : tdBe (readTd off) = 0b1111#4 := (makeTd_fields _ _ _).1
@[simp] theorem tdBe_writeTd (off : Offset) : tdBe (writeTd off) = 0b1111#4 := (makeTd_fields _ _ _).1

@[simp] theorem decode_rdH (i : Fin 8) (v : Word) : decodeTransaction (readTd (offsetOfH i)) v = .ok (.rdH i) := by
  rw [decodeTransaction_of_rowValue (rowValue_h i).1 v ⟨0x1E20#13, 0x1FE3#13, fun off _ => .rdH (indexOfH off)⟩
    (by simp [tdRows, systemRows, dataRows]) rfl]
  simp [(rowValue_h i).2.2]

@[simp] theorem decode_wrH (i : Fin 8) (v : Word) : decodeTransaction (writeTd (offsetOfH i)) v = .ok (.wrH i v) := by
  rw [decodeTransaction_of_rowValue (rowValue_h i).2.1 v ⟨0x1F20#13, 0x1FE3#13, fun off v => .wrH (indexOfH off) v⟩
    (by simp [tdRows, systemRows, dataRows]) rfl]
  simp [(rowValue_h i).2.2]

@[simp] theorem decode_rdM (j : Fin 16) (v : Word) : decodeTransaction (readTd (offsetOfM j)) v = .ok (.rdM j) := by
  rw [decodeTransaction_of_rowValue (rowValue_m j).1 v ⟨0x1E40#13, 0x1FC3#13, fun off _ => .rdM (indexOfM off)⟩
    (by simp [tdRows, systemRows, dataRows]) rfl]
  simp [(rowValue_m j).2.2]

@[simp] theorem decode_wrM (j : Fin 16) (v : Word) : decodeTransaction (writeTd (offsetOfM j)) v = .ok (.wrM j v) := by
  rw [decodeTransaction_of_rowValue (rowValue_m j).2.1 v ⟨0x1F40#13, 0x1FC3#13, fun off v => .wrM (indexOfM off) v⟩
    (by simp [tdRows, systemRows, dataRows]) rfl]
  simp [(rowValue_m j).2.2]

theorem decode_rdRsvdLo {off : Offset} (h : Offset.reservedLo off = true) (v : Word) :
    decodeTransaction (readTd off) v = .ok (.rdRsvdLo off) := by
  rw [decodeTransaction_of_rowValue ((rowValue_reserved off).1 h).1 v ⟨0x1E10#13, 0x1FF3#13, fun off _ => .rdRsvdLo off⟩
    (by simp [tdRows, systemRows, dataRows]) rfl, tdOff_readTd]

theorem decode_wrRsvdLo {off : Offset} (h : Offset.reservedLo off = true) (v : Word) :
    decodeTransaction (writeTd off) v = .ok (.wrRsvdLo off v) := by
  rw [decodeTransaction_of_rowValue ((rowValue_reserved off).1 h).2 v ⟨0x1F10#13, 0x1FF3#13, fun off v => .wrRsvdLo off v⟩
    (by simp [tdRows, systemRows, dataRows]) rfl, tdOff_writeTd]

theorem decode_rdRsvdHi {off : Offset} (h : Offset.reservedHi off = true) (v : Word) :
    decodeTransaction (readTd off) v = .ok (.rdRsvdHi off) := by
  rw [decodeTransaction_of_rowValue ((rowValue_reserved off).2 h).1 v ⟨0x1E80#13, 0x1F83#13, fun off _ => .rdRsvdHi off⟩
    (by simp [tdRows, systemRows, dataRows]) rfl, tdOff_readTd]

theorem decode_wrRsvdHi {off : Offset} (h : Offset.reservedHi off = true) (v : Word) :
    decodeTransaction (writeTd off) v = .ok (.wrRsvdHi off v) := by
  rw [decodeTransaction_of_rowValue ((rowValue_reserved off).2 h).2 v ⟨0x1F80#13, 0x1F83#13, fun off v => .wrRsvdHi off v⟩
    (by simp [tdRows, systemRows, dataRows]) rfl, tdOff_writeTd]

@[simp] theorem decode_wrCmd (v : Word) : decodeTransaction (writeTd 0x00#8) v = .ok (.wrCmd v) := rfl
@[simp] theorem decode_rdCmd (v : Word) : decodeTransaction (readTd 0x00#8) v = .ok .rdCmd := rfl
@[simp] theorem decode_rdStatus (v : Word) : decodeTransaction (readTd 0x04#8) v = .ok .rdStatus := rfl
@[simp] theorem decode_wrStatus (v : Word) : decodeTransaction (writeTd 0x04#8) v = .ok (.wrStatus v) := rfl
@[simp] theorem decode_rdCtrl (v : Word) : decodeTransaction (readTd 0x08#8) v = .ok .rdCtrl := rfl
@[simp] theorem decode_wrCtrl (v : Word) : decodeTransaction (writeTd 0x08#8) v = .ok (.wrCtrl v) := rfl
@[simp] theorem decode_rdInfo (v : Word) : decodeTransaction (readTd 0x0C#8) v = .ok .rdInfo := rfl
@[simp] theorem decode_wrInfo (v : Word) : decodeTransaction (writeTd 0x0C#8) v = .ok (.wrInfo v) := rfl

/-! ## Encodings are told apart -/

theorem writeTd_inj (a b : Offset) : writeTd a = writeTd b ↔ a = b :=
  ⟨fun h => by simpa using congrArg tdOff h, fun h => by rw [h]⟩

theorem readTd_inj (a b : Offset) : readTd a = readTd b ↔ a = b :=
  ⟨fun h => by simpa using congrArg tdOff h, fun h => by rw [h]⟩

/-- A read is no write. -/
theorem ne_writeTd_of_read {td : Td} (h : tdWe td = false) (a : Offset) : td ≠ writeTd a := by
  rintro rfl
  simp at h

theorem encodeCommand_inj (c d : Command) : encodeCommand c = encodeCommand d ↔ c = d :=
  ⟨fun h => by simpa [decodeCommand_encodeCommand] using congrArg decodeCommand h, fun h => by rw [h]⟩

end Sys2Proof.Laws
end

