-- ==== Sys2Proof/Laws/Flags.lean ====
section
/-! SUPPORT. The bits of the STATUS and CTRL words, and what each computation on STATUS does to its bits. -/

namespace Sys2Proof.Machine

/-- Each bit of the word that a read of STATUS returns. -/
theorem Status.getLsbD_word (s : Status) (k : Nat) : s.word.getLsbD k =
    match k with
    | 0 => s.busy | 1 => s.done | 2 => s.errIll | 3 => s.errBusy | 4 => s.errAcc | _ => false := by
  match k with
  | 0 | 1 | 2 | 3 | 4 => simp only [Status.word, BitVec.getLsbD_append]; simp
  | k + 5 => simp only [Status.word, BitVec.getLsbD_append]; simp

/-- Each bit of the word that a read of CTRL returns. -/
theorem Ctrl.getLsbD_word (c : Ctrl) (k : Nat) : c.word.getLsbD k =
    match k with
    | 0 => c.doneIe | 1 => c.errIe | _ => false := by
  match k with
  | 0 | 1 => simp only [Ctrl.word, BitVec.getLsbD_append]; simp
  | k + 2 => simp only [Ctrl.word, BitVec.getLsbD_append]; simp

@[simp] theorem Status.withError_busy (s : Status) (e : ErrorKind) : (s.withError e).busy = s.busy := by cases e <;> rfl
@[simp] theorem Status.withError_done (s : Status) (e : ErrorKind) : (s.withError e).done = s.done := by cases e <;> rfl
@[simp] theorem Status.clear_busy (s : Status) (v : Word) : (s.clear v).busy = s.busy := rfl
@[simp] theorem Status.accepted_busy (s : Status) : s.accepted.busy = true := rfl
@[simp] theorem Status.accepted_done (s : Status) : s.accepted.done = false := rfl
@[simp] theorem Status.accepted_anyError (s : Status) : s.accepted.anyError = s.anyError := rfl
@[simp] theorem Status.completed_busy (s : Status) : s.completed.busy = false := rfl
@[simp] theorem Status.completed_done (s : Status) : s.completed.done = true := rfl
@[simp] theorem Status.completed_anyError (s : Status) : s.completed.anyError = s.anyError := rfl

/-- STATUS and what a bit of it says: any error bit is set exactly if one of the three is. -/
theorem Status.anyError_withError (s : Status) (e : ErrorKind) : (s.withError e).anyError = true := by
  cases e <;> simp [Status.anyError, Status.withError]

end Sys2Proof.Machine
end

