-- ==== Sys2Proof/Laws/State.lean ====
section
/-! SUPPORT. What each shared operation does to each field of the state, and what each instruction does, once. -/

namespace Sys2Proof.Machine

@[simp] theorem State.returns_h (s : State) (v : Word) : (s.returns v).h = s.h := rfl
@[simp] theorem State.returns_m (s : State) (v : Word) : (s.returns v).m = s.m := rfl
@[simp] theorem State.returns_status (s : State) (v : Word) : (s.returns v).status = s.status := rfl
@[simp] theorem State.returns_ctrl (s : State) (v : Word) : (s.returns v).ctrl = s.ctrl := rfl
@[simp] theorem State.returns_response (s : State) (v : Word) : (s.returns v).response = .data v := rfl
@[simp] theorem State.returns_inputs (s : State) (v : Word) : (s.returns v).inputs = s.inputs := rfl
@[simp] theorem State.returns_draws (s : State) (v : Word) : (s.returns v).draws = s.draws := rfl

@[simp] theorem State.acked_h (s : State) : s.acked.h = s.h := rfl
@[simp] theorem State.acked_m (s : State) : s.acked.m = s.m := rfl
@[simp] theorem State.acked_status (s : State) : s.acked.status = s.status := rfl
@[simp] theorem State.acked_ctrl (s : State) : s.acked.ctrl = s.ctrl := rfl
@[simp] theorem State.acked_response (s : State) : s.acked.response = .ack := rfl
@[simp] theorem State.acked_inputs (s : State) : s.acked.inputs = s.inputs := rfl
@[simp] theorem State.acked_draws (s : State) : s.acked.draws = s.draws := rfl

@[simp] theorem State.raise_h (s : State) (e : ErrorKind) (w : Bool) : (s.raise e w).h = s.h := rfl
@[simp] theorem State.raise_m (s : State) (e : ErrorKind) (w : Bool) : (s.raise e w).m = s.m := rfl
@[simp] theorem State.raise_status (s : State) (e : ErrorKind) (w : Bool) : (s.raise e w).status = s.status.withError e := rfl
@[simp] theorem State.raise_ctrl (s : State) (e : ErrorKind) (w : Bool) : (s.raise e w).ctrl = s.ctrl := rfl
@[simp] theorem State.raise_response (s : State) (e : ErrorKind) (w : Bool) :
    (s.raise e w).response = if w then .ack else .data 0 := rfl
@[simp] theorem State.raise_inputs (s : State) (e : ErrorKind) (w : Bool) : (s.raise e w).inputs = s.inputs := rfl
@[simp] theorem State.raise_draws (s : State) (e : ErrorKind) (w : Bool) : (s.raise e w).draws = s.draws := rfl

@[simp] theorem State.acknowledge_h (s : State) (v : Word) : (s.acknowledge v).h = s.h := rfl
@[simp] theorem State.acknowledge_m (s : State) (v : Word) : (s.acknowledge v).m = s.m := rfl
@[simp] theorem State.acknowledge_status (s : State) (v : Word) : (s.acknowledge v).status = s.status.clear v := rfl
@[simp] theorem State.acknowledge_ctrl (s : State) (v : Word) : (s.acknowledge v).ctrl = s.ctrl := rfl
@[simp] theorem State.acknowledge_inputs (s : State) (v : Word) : (s.acknowledge v).inputs = s.inputs := rfl
@[simp] theorem State.acknowledge_draws (s : State) (v : Word) : (s.acknowledge v).draws = s.draws := rfl

@[simp] theorem State.engineTurn_h (s : State) : s.engineTurn.h = if s.status.busy then compress s.h s.m else s.h := by
  unfold engineTurn complete; split <;> rfl
@[simp] theorem State.engineTurn_m (s : State) : s.engineTurn.m = s.m := by unfold engineTurn complete; split <;> rfl
@[simp] theorem State.engineTurn_status (s : State) :
    s.engineTurn.status = if s.status.busy then s.status.completed else s.status := by
  unfold engineTurn complete; split <;> rfl
@[simp] theorem State.engineTurn_ctrl (s : State) : s.engineTurn.ctrl = s.ctrl := by unfold engineTurn complete; split <;> rfl
@[simp] theorem State.engineTurn_response (s : State) : s.engineTurn.response = .quiet := rfl
@[simp] theorem State.engineTurn_inputs (s : State) : s.engineTurn.inputs = s.inputs := by
  unfold engineTurn complete; split <;> rfl
@[simp] theorem State.engineTurn_draws (s : State) : s.engineTurn.draws = s.draws := by
  unfold engineTurn complete; split <;> rfl

@[simp] theorem State.resetDuring_h (s : State) (d : Option Transaction) : (s.resetDuring d).h = Vector.replicate 8 0 := by
  unfold resetDuring; split <;> [rfl; (split <;> rfl)]
@[simp] theorem State.resetDuring_m (s : State) (d : Option Transaction) : (s.resetDuring d).m = Vector.replicate 16 0 := by
  unfold resetDuring; split <;> [rfl; (split <;> rfl)]
@[simp] theorem State.resetDuring_status (s : State) (d : Option Transaction) :
    (s.resetDuring d).status = ⟨false, false, false, false, false⟩ := by
  unfold resetDuring; split <;> [rfl; (split <;> rfl)]
@[simp] theorem State.resetDuring_ctrl (s : State) (d : Option Transaction) : (s.resetDuring d).ctrl = ⟨false, false⟩ := by
  unfold resetDuring; split <;> [rfl; (split <;> rfl)]
@[simp] theorem State.resetDuring_inputs (s : State) (d : Option Transaction) : (s.resetDuring d).inputs = s.inputs := by
  unfold resetDuring; split <;> [rfl; (split <;> rfl)]

@[simp] theorem State.returnsDraw_h (s : State) : s.returnsDraw.h = s.h := rfl
@[simp] theorem State.returnsDraw_m (s : State) : s.returnsDraw.m = s.m := rfl
@[simp] theorem State.returnsDraw_status (s : State) : s.returnsDraw.status = s.status := rfl
@[simp] theorem State.returnsDraw_ctrl (s : State) : s.returnsDraw.ctrl = s.ctrl := rfl
@[simp] theorem State.returnsDraw_inputs (s : State) : s.returnsDraw.inputs = s.inputs := rfl
@[simp] theorem State.returnsDraw_draws (s : State) : s.returnsDraw.draws = s.draws + 1 := rfl

theorem State.whenIdle_idle {s : State} (h : s.status.busy = false) (f : State → State) : s.whenIdle f = (f s).acked := by
  simp [State.whenIdle, h]
theorem State.whenIdle_busy {s : State} (h : s.status.busy = true) (f : State → State) :
    s.whenIdle f = s.raise .busy true := by simp [State.whenIdle, h]

/-! ## Each instruction, once -/

theorem exec_nop (s : State) : exec .nop s = .next (if s.status.busy then s.raise .busy true else s.acked) := rfl
theorem exec_initSha256 (s : State) :
    exec .initSha256 s = .next (if s.status.busy then s.raise .busy true else { s.acked with h := iv256 }) := rfl
theorem exec_initSha224 (s : State) :
    exec .initSha224 s = .next (if s.status.busy then s.raise .busy true else { s.acked with h := iv224 }) := rfl
theorem exec_compress (s : State) :
    exec .compress s = .next (if s.status.busy then s.raise .busy true else { s.acked with status := s.status.accepted }) := rfl
theorem exec_zeroize (s : State) : exec .zeroize s = .next (if s.status.busy then s.raise .busy true
    else { s.acked with h := Vector.replicate 8 0, m := Vector.replicate 16 0 }) := rfl
theorem exec_wrH (i : Fin 8) (v : Word) (s : State) :
    exec (.wrH i v) s = .next (if s.status.busy then s.raise .busy true else { s.acked with h := s.h.set i v }) := rfl
theorem exec_wrM (j : Fin 16) (v : Word) (s : State) :
    exec (.wrM j v) s = .next (if s.status.busy then s.raise .busy true else { s.acked with m := s.m.set j v }) := rfl
theorem exec_rdH (i : Fin 8) (s : State) :
    exec (.rdH i) s = .next (if s.status.busy then s.returnsDraw else s.returns s.h[i]) := rfl
theorem exec_rdM (j : Fin 16) (s : State) : exec (.rdM j) s = .next (s.returns s.m[j]) := rfl
theorem exec_rdCmd (s : State) : exec .rdCmd s = .next (s.returns 0) := rfl
theorem exec_rdStatus (s : State) : exec .rdStatus s = .next (s.returns s.status.word) := rfl
theorem exec_wrStatus (v : Word) (s : State) : exec (.wrStatus v) s = .next (s.acknowledge v).acked := rfl
theorem exec_rdCtrl (s : State) : exec .rdCtrl s = .next (s.returns s.ctrl.word) := rfl
theorem exec_wrCtrl (v : Word) (s : State) : exec (.wrCtrl v) s = .next { s.acked with ctrl := ctrlOfWord v } := rfl
theorem exec_rdInfo (s : State) : exec .rdInfo s = .next (s.returns infoWord) := rfl
theorem exec_wrInfo (v : Word) (s : State) : exec (.wrInfo v) s = .next s.acked := rfl
theorem exec_rdRsvdLo (off : Offset) (s : State) : exec (.rdRsvdLo off) s = .next (s.returns 0) := rfl
theorem exec_wrRsvdLo (off : Offset) (v : Word) (s : State) : exec (.wrRsvdLo off v) s = .next s.acked := rfl
theorem exec_rdRsvdHi (off : Offset) (s : State) : exec (.rdRsvdHi off) s = .next (s.returns 0) := rfl
theorem exec_wrRsvdHi (off : Offset) (v : Word) (s : State) : exec (.wrRsvdHi off v) s = .next s.acked := rfl

/-- A command is the same while busy whichever it is, and the same written to CMD as run by itself. -/
theorem exec_wrCmd_of_ok {v : Word} {c : Command} (h : decodeCommand v = .ok c) (s : State) :
    exec (.wrCmd v) s = exec c.instr s := by
  show execWrCmd v s = _
  unfold execWrCmd
  cases hb : s.status.busy <;> simp only [h] <;> rcases c with _ | (_ | _) | _ | _ <;>
    simp [Command.instr, execCommand, exec, execNop, execInitSha256, execInitSha224, execCompress, execZeroize,
      State.whenIdle, hb]

theorem exec_wrCmd_of_error {v : Word} {e : DecodeError} (h : decodeCommand v = .error e) (s : State) :
    exec (.wrCmd v) s = .next (if s.status.busy then s.raise .busy true else s.raise .illegal true) := by
  show execWrCmd v s = _
  unfold execWrCmd
  cases hb : s.status.busy <;> simp [h]

end Sys2Proof.Machine
end

