-- ==== Sys2Proof/Laws/Step.lean ====
section
/-! SUPPORT. Everything an event can do to the state (`Effect`), said once; the lemmas about `step` and `trace`. -/

namespace Sys2Proof.Machine

open Sys2Proof.Laws

/-- The effect of an event on a state: one constructor per kind of step. -/
inductive Effect (s : State) : Event → State → Prop
  | engine : Effect s .engine s.engineTurn
  | reset (d : Option Transaction) : Effect s (.reset d) (s.resetDuring d)
  | wide (w : Bool) : Effect s (.wide w) (s.raise .access w)
  | access (td : Td) (v : Word) (hl : tdLegal td = false) : Effect s (.bus ⟨td, v⟩) (s.raise .access (tdWe td))
  | refusedWrite (td : Td) (v : Word) (hb : s.status.busy = true) (hl : tdLegal td = true) (hw : tdWe td = true)
      (hg : guardedOffset (tdOff td) = true) : Effect s (.bus ⟨td, v⟩) (s.raise .busy true)
  | illegal (v : Word) (hb : s.status.busy = false) (hv : (decodeCommand v).isOk = false) :
      Effect s (.bus ⟨writeTd 0x00#8, v⟩) (s.raise .illegal true)
  | nop (hb : s.status.busy = false) : Effect s (.bus ⟨writeTd 0x00#8, encodeCommand .nop⟩) s.acked
  | init (x : Variant) (hb : s.status.busy = false) :
      Effect s (.bus ⟨writeTd 0x00#8, encodeCommand (.init x)⟩) { s.acked with h := initialHash x }
  | compress (hb : s.status.busy = false) :
      Effect s (.bus ⟨writeTd 0x00#8, encodeCommand .compress⟩) { s.acked with status := s.status.accepted }
  | zeroize (hb : s.status.busy = false) : Effect s (.bus ⟨writeTd 0x00#8, encodeCommand .zeroize⟩)
      { s.acked with h := Vector.replicate 8 0, m := Vector.replicate 16 0 }
  | wrStatus (v : Word) : Effect s (.bus ⟨writeTd 0x04#8, v⟩) (s.acknowledge v).acked
  | wrCtrl (v : Word) : Effect s (.bus ⟨writeTd 0x08#8, v⟩) { s.acked with ctrl := ctrlOfWord v }
  | wrH (i : Fin 8) (v : Word) (hb : s.status.busy = false) :
      Effect s (.bus ⟨writeTd (offsetOfH i), v⟩) { s.acked with h := s.h.set i v }
  | wrM (j : Fin 16) (v : Word) (hb : s.status.busy = false) :
      Effect s (.bus ⟨writeTd (offsetOfM j), v⟩) { s.acked with m := s.m.set j v }
  | ignored (off : Offset) (v : Word) (hl : tdLegal (writeTd off) = true) (hg : guardedOffset off = false)
      (h4 : off ≠ 0x04#8) (h8 : off ≠ 0x08#8) (hw : ∀ i j, off ≠ offsetOfH i ∧ off ≠ offsetOfM j) :
      Effect s (.bus ⟨writeTd off, v⟩) s.acked
  | read (td : Td) (v : Word) (hl : tdLegal td = true) (hw : tdWe td = false) (w : Word)
      (hh : s.status.busy = false → w = s.window (tdOff td)) : Effect s (.bus ⟨td, v⟩) (s.returns w)
  | draw (i : Fin 8) (v : Word) (hb : s.status.busy = true) : Effect s (.bus ⟨readTd (offsetOfH i), v⟩) s.returnsDraw

theorem guarded_offsets : (∀ i : Fin 8, guardedOffset (offsetOfH i) = true ∧ tdLegal (writeTd (offsetOfH i)) = true ∧
      tdLegal (readTd (offsetOfH i)) = true) ∧
    (∀ j : Fin 16, guardedOffset (offsetOfM j) = true ∧ tdLegal (writeTd (offsetOfM j)) = true ∧
      tdLegal (readTd (offsetOfM j)) = true) := by decide +kernel

theorem system_offsets : tdLegal (writeTd 0x00#8) = true ∧ tdLegal (writeTd 0x04#8) = true ∧ tdLegal (writeTd 0x08#8) = true ∧
    guardedOffset 0x00#8 = true ∧ guardedOffset 0x04#8 = false ∧ guardedOffset 0x08#8 = false := by decide

theorem reserved_offsets : ∀ off : Offset, (Offset.reservedLo off = true ∨ Offset.reservedHi off = true) →
    tdLegal (writeTd off) = true ∧ tdLegal (readTd off) = true ∧ guardedOffset off = false ∧ off ≠ 0x04#8 ∧ off ≠ 0x08#8 ∧
      off ≠ 0x0C#8 ∧ (∀ i j, off ≠ offsetOfH i ∧ off ≠ offsetOfM j) ∧ off &&& 0xE3#8 ≠ 0x20#8 ∧ off &&& 0xC3#8 ≠ 0x40#8 := by
  decide +kernel

theorem window_h (s : State) (i : Fin 8) : s.window (offsetOfH i) = s.h[i] := by
  have : ∀ i : Fin 8, offsetOfH i ≠ 0x04#8 ∧ offsetOfH i ≠ 0x08#8 ∧ offsetOfH i ≠ 0x0C#8 ∧
      offsetOfH i &&& 0xE3#8 = 0x20#8 ∧ indexOfH (offsetOfH i) = i := by decide
  simp [State.window, State.readH, this i]

theorem window_m (s : State) (j : Fin 16) : s.window (offsetOfM j) = s.m[j] := by
  have : ∀ j : Fin 16, offsetOfM j ≠ 0x04#8 ∧ offsetOfM j ≠ 0x08#8 ∧ offsetOfM j ≠ 0x0C#8 ∧
      offsetOfM j &&& 0xE3#8 ≠ 0x20#8 ∧ offsetOfM j &&& 0xC3#8 = 0x40#8 ∧ indexOfM (offsetOfM j) = j := by decide
  simp [State.window, State.readM, this j]

theorem window_reserved (s : State) {off : Offset} (h : Offset.reservedLo off = true ∨ Offset.reservedHi off = true) :
    s.window off = 0 := by
  obtain ⟨-, -, -, h4, h8, hC, -, hH, hM⟩ := reserved_offsets off h
  simp [State.window, h4, h8, hC, hH, hM]

/-- Every event answers a next state, and `Effect` says which. -/
theorem takeEvent_effect (e : Event) (s : State) : ∃ t, takeEvent e s = .next t ∧ Effect s e t := by
  rcases e with ⟨td, v⟩ | w | _ | d
  · have hd := decodeTransaction_decoded td v
    have heq : takeEvent (.bus ⟨td, v⟩) s = match decodeTransaction td v with
      | .ok i => exec i s
      | .error _ => .next (s.raise .access (tdWe td)) := rfl
    rw [heq]
    generalize decodeTransaction td v = x at hd
    have hbusy : ∀ off : Offset, td = writeTd off → s.status.busy = true → tdLegal td = true → guardedOffset off = true →
        Effect s (.bus ⟨td, v⟩) (s.raise .busy true) := fun off h hb hl hg =>
      .refusedWrite td v hb hl (by rw [h, tdWe_writeTd]) (by rw [h, tdOff_writeTd]; exact hg)
    cases hd with
    | illegal r h => exact ⟨_, rfl, .access td v h⟩
    | wrCmd h =>
      cases hb : s.status.busy with
      | true =>
        refine ⟨s.raise .busy true, ?_, hbusy _ h hb (by rw [h]; decide) rfl⟩
        show execWrCmd v s = _
        simp [execWrCmd, hb]
      | false =>
        show ∃ t, exec (.wrCmd v) s = .next t ∧ _
        cases hc : decodeCommand v with
        | error r =>
          subst h
          exact ⟨s.raise .illegal true, by simp [exec_wrCmd_of_error hc, hb], .illegal v hb (by rw [hc]; rfl)⟩
        | ok c =>
          rw [exec_wrCmd_of_ok hc]
          obtain rfl := (decodeCommand_ok_iff v c).mp hc
          subst h
          rcases c with _ | (_ | _) | _ | _
          · exact ⟨s.acked, by simp [Command.instr, exec_nop, hb], .nop hb⟩
          · exact ⟨_, by simp only [Command.instr, exec_initSha256, hb]; rfl, .init .sha256 hb⟩
          · exact ⟨_, by simp only [Command.instr, exec_initSha224, hb]; rfl, .init .sha224 hb⟩
          · exact ⟨_, by simp only [Command.instr, exec_compress, hb]; rfl, .compress hb⟩
          · exact ⟨_, by simp only [Command.instr, exec_zeroize, hb]; rfl, .zeroize hb⟩
    | wrStatus h => subst h; exact ⟨_, rfl, .wrStatus v⟩
    | wrCtrl h => subst h; exact ⟨_, rfl, .wrCtrl v⟩
    | wrInfo h =>
      subst h
      exact ⟨_, rfl, .ignored 0x0C#8 v (by decide) (by decide) (by decide) (by decide) (by decide +kernel)⟩
    | wrRsvdLo off hr h =>
      obtain ⟨h1, -, h2, h3, h4, -, h5, -⟩ := reserved_offsets off (.inl hr)
      subst h
      exact ⟨_, rfl, .ignored off v h1 h2 h3 h4 h5⟩
    | wrRsvdHi off hr h =>
      obtain ⟨h1, -, h2, h3, h4, -, h5, -⟩ := reserved_offsets off (.inr hr)
      subst h
      exact ⟨_, rfl, .ignored off v h1 h2 h3 h4 h5⟩
    | wrH i h =>
      cases hb : s.status.busy with
      | true => exact ⟨_, by simp only [exec_wrH, hb]; rfl, hbusy _ h hb (by rw [h]; exact (guarded_offsets.1 i).2.1)
          (guarded_offsets.1 i).1⟩
      | false => subst h; exact ⟨_, by simp only [exec_wrH, hb]; rfl, .wrH i v hb⟩
    | wrM j h =>
      cases hb : s.status.busy with
      | true => exact ⟨_, by simp only [exec_wrM, hb]; rfl, hbusy _ h hb (by rw [h]; exact (guarded_offsets.2 j).2.1)
          (guarded_offsets.2 j).1⟩
      | false => subst h; exact ⟨_, by simp only [exec_wrM, hb]; rfl, .wrM j v hb⟩
    | rdCmd h => exact ⟨_, rfl, .read td v (by rw [h]; decide) (by rw [h, tdWe_readTd]) 0 (fun _ => by rw [h]; rfl)⟩
    | rdStatus h => exact ⟨_, rfl, .read td v (by rw [h]; decide) (by rw [h, tdWe_readTd]) _ (fun _ => by rw [h]; rfl)⟩
    | rdCtrl h => exact ⟨_, rfl, .read td v (by rw [h]; decide) (by rw [h, tdWe_readTd]) _ (fun _ => by rw [h]; rfl)⟩
    | rdInfo h => exact ⟨_, rfl, .read td v (by rw [h]; decide) (by rw [h, tdWe_readTd]) _ (fun _ => by rw [h]; rfl)⟩
    | rdRsvdLo off hr h =>
      exact ⟨_, rfl, .read td v (by rw [h]; exact (reserved_offsets off (.inl hr)).2.1) (by rw [h, tdWe_readTd]) 0
        (fun _ => by rw [h, tdOff_readTd, window_reserved s (.inl hr)])⟩
    | rdRsvdHi off hr h =>
      exact ⟨_, rfl, .read td v (by rw [h]; exact (reserved_offsets off (.inr hr)).2.1) (by rw [h, tdWe_readTd]) 0
        (fun _ => by rw [h, tdOff_readTd, window_reserved s (.inr hr)])⟩
    | rdM j h =>
      exact ⟨_, rfl, .read td v (by rw [h]; exact (guarded_offsets.2 j).2.2) (by rw [h, tdWe_readTd]) _
        (fun _ => by rw [h, tdOff_readTd, window_m]; rfl)⟩
    | rdH i h =>
      cases hb : s.status.busy with
      | true => subst h; exact ⟨_, by simp only [exec_rdH, hb]; rfl, .draw i v hb⟩
      | false => exact ⟨_, by simp only [exec_rdH, hb]; rfl, .read td v (by rw [h]; exact (guarded_offsets.1 i).2.2)
          (by rw [h, tdWe_readTd]) _ (fun _ => by rw [h, tdOff_readTd, window_h])⟩
  · exact ⟨_, rfl, .wide w⟩
  · exact ⟨_, rfl, .engine⟩
  · exact ⟨_, rfl, .reset d⟩

/-- Inversion: what an event that answers t did. -/
theorem effect_of_takeEvent {e : Event} {s t : State} (h : takeEvent e s = .next t) : Effect s e t := by
  obtain ⟨u, hu, he⟩ := takeEvent_effect e s
  rw [hu] at h
  cases h
  exact he

theorem takeEvent_of_effect {e : Event} {s t : State} (h : ∀ u, Effect s e u → u = t) : takeEvent e s = .next t := by
  obtain ⟨u, hu, he⟩ := takeEvent_effect e s
  rw [hu, h u he]

theorem takeEvent_illegal {td : Td} (h : tdLegal td = false) (v : Word) (s : State) :
    takeEvent (.bus ⟨td, v⟩) s = .next (s.raise .access (tdWe td)) := by
  obtain ⟨r, hr⟩ := decodeTransaction_illegal h v
  show transact _ s = _
  simp [transact, hr]

theorem takeEvent_ok {td : Td} {v : Word} {i : Instr} (h : decodeTransaction td v = .ok i) (s : State) :
    takeEvent (.bus ⟨td, v⟩) s = exec i s := by
  show transact _ s = _
  simp [transact, h]

theorem step_cons {s : State} {e : Event} {rest : List Event} (h : s.inputs = e :: rest) :
    step s = takeEvent e { s with inputs := rest } := by simp [step, fetch, h]

theorem step_nil {s : State} (h : s.inputs = []) : step s = takeEvent .engine s := by simp [step, fetch, h]

theorem fetch_snd (s : State) : (fetch s).2 = { s with inputs := s.inputs.tail } := by
  rcases s with ⟨_, _, _, _, _, _ | ⟨e, rest⟩, _⟩ <;> rfl

/-- Inversion of a step. -/
theorem effect_of_step {s t : State} (h : step s = .next t) : Effect { s with inputs := s.inputs.tail } (fetch s).1 t := by
  rw [← fetch_snd]; exact effect_of_takeEvent h

theorem step_effect (s : State) : ∃ t, step s = .next t ∧ Effect { s with inputs := s.inputs.tail } (fetch s).1 t := by
  obtain ⟨t, h, he⟩ := takeEvent_effect (fetch s).1 (fetch s).2
  exact ⟨t, h, by rwa [fetch_snd] at he⟩

/-- No event but the environment's list touches the events to come. -/
theorem Effect.inputs {s t : State} {e : Event} (h : Effect s e t) : t.inputs = s.inputs := by
  cases h <;> first | rfl | simp

/-! ## Runs -/

theorem trace_succ {s t : State} (h : step s = .next t) (k : Nat) :
    trace (k + 1) s = (trace k t).map fun r => (t.response :: r.1, r.2) := by simp [trace, h]

/-- Two runs, one after the other. -/
theorem trace_add {j : Nat} {s t : State} {rs : List Response} (h : trace j s = some (rs, t)) (k : Nat) :
    trace (j + k) s = (trace k t).map fun r => (rs ++ r.1, r.2) := by
  induction j generalizing s rs with
  | zero => simp only [trace, Option.some.injEq, Prod.mk.injEq] at h; obtain ⟨rfl, rfl⟩ := h; simp
  | succ j ih =>
    obtain ⟨u, hu, -⟩ := step_effect s
    rw [Nat.add_right_comm, trace_succ hu]
    rw [trace_succ hu] at h
    cases hj : trace j u with
    | none => simp [hj] at h
    | some r =>
      simp only [hj, Option.map_some, Option.some.injEq, Prod.mk.injEq] at h
      obtain ⟨rfl, rfl⟩ := h
      simp [ih hj, Option.map_map, Function.comp_def]

/-- A run always has a result. -/
theorem trace_isSome (k : Nat) (s : State) : ∃ rs t, trace k s = some (rs, t) ∧ rs.length = k := by
  induction k generalizing s with
  | zero => exact ⟨[], s, rfl, rfl⟩
  | succ k ih =>
    obtain ⟨u, hu, -⟩ := step_effect s
    obtain ⟨rs, t, h, hl⟩ := ih u
    exact ⟨u.response :: rs, t, by simp [trace_succ hu, h], by simp [hl]⟩

end Sys2Proof.Machine
end

