-- ==== Sys2Proof/Laws/Run.lean ====
section
/-! SUPPORT. Runs: the host while a compression is in flight, and what a run of given events leaves. -/

namespace Sys2Proof.Machine

theorem stateAfter_zero (s : State) : stateAfter 0 s = some s := rfl

theorem stateAfter_succ {s t : State} (h : step s = .next t) (k : Nat) : stateAfter (k + 1) s = stateAfter k t := by
  simp [stateAfter, trace_succ h, Option.map_map, Function.comp_def]

theorem stateAfter_add {j : Nat} {s t : State} (h : stateAfter j s = some t) (k : Nat) :
    stateAfter (j + k) s = stateAfter k t := by
  obtain ⟨r, hr, rfl⟩ : ∃ r, trace j s = some r ∧ r.2 = t := by simpa [stateAfter] using h
  simp [stateAfter, trace_add hr, Option.map_map, Function.comp_def]

/-- The completion step. -/
theorem step_completes {s : State} (hb : s.status.busy = true) (he : (fetch s).1 = .engine) :
    step s = .next { s with h := compress s.h s.m, status := s.status.completed, response := .quiet, inputs := s.inputs.tail } := by
  rw [step, he, fetch_snd]
  simp [takeEvent, State.engineTurn, State.complete, Status.completed, hb]

/-- What a host event can do while busy. -/
theorem busy_host_event {e : Event} {s t : State} (hb : s.status.busy = true) (he : e.fromHost = true)
    (h : takeEvent e s = .next t) : t.h = s.h ∧ t.m = s.m ∧ t.status.busy = true ∧ t.inputs = s.inputs := by
  have hi := (effect_of_takeEvent h).inputs
  cases effect_of_takeEvent h <;> simp_all [Event.fromHost, Status.withError, Status.clear, State.returnsDraw]

/-- What a run of host events can do while busy. -/
theorem busy_host_run {host : List Event} : ∀ {s : State} {rest : List Event}, s.status.busy = true →
    (∀ e ∈ host, e.fromHost = true) → s.inputs = host ++ rest →
    ∃ t, stateAfter host.length s = some t ∧ t.h = s.h ∧ t.m = s.m ∧ t.status.busy = true ∧ t.inputs = rest := by
  induction host with
  | nil => intro s rest hb _ hi; exact ⟨s, rfl, rfl, rfl, hb, by simpa using hi⟩
  | cons e host ih =>
    intro s rest hb hh hi
    obtain ⟨u, hu, -⟩ := takeEvent_effect e { s with inputs := host ++ rest }
    obtain ⟨h1, h2, h3, h4⟩ := busy_host_event (by exact hb) (hh e (by simp)) hu
    obtain ⟨t, ht, a, b, c, d⟩ := ih h3 (fun e he => hh e (by simp [he])) h4
    exact ⟨t, by rw [List.length_cons, stateAfter_succ ((step_cons hi).trans hu), ht], a.trans h1, b.trans h2, c, d⟩

/-- Turns of the engine while idle change nothing but the port. -/
theorem idle_engine_run (n : Nat) : ∀ s : State, s.status.busy = false → s.inputs = List.replicate n .engine →
    ∃ t, stateAfter n s = some t ∧ t.h = s.h ∧ t.m = s.m ∧ t.status = s.status := by
  induction n with
  | zero => intro s _ _; exact ⟨s, rfl, rfl, rfl, rfl⟩
  | succ n ih =>
    intro s hb hi
    have hs : step s = .next { s with response := .quiet, inputs := List.replicate n .engine } := by
      rw [step_cons hi]; simp [takeEvent, State.engineTurn, hb]
    obtain ⟨t, ht, h⟩ := ih { s with response := .quiet, inputs := List.replicate n .engine } hb rfl
    exact ⟨t, by rw [stateAfter_succ hs, ht], h⟩

end Sys2Proof.Machine
end

