-- ==== Sys2Proof/Laws/Host.lean ====
section
/-! SUPPORT. The host's accesses as events, their steps, runs of them; padding, parsing and byte order. -/

namespace Sys2Proof.Machine

open Sys2Proof.Laws

/-! ## Accesses -/

theorem engineBase_mod : Config.engineBase % 256 = 0 := by
  simp only [Config.engineBase, Config.windowBytes]
  omega

theorem inWindow_iff (addr : Nat) : inWindow addr = true ↔ Config.engineBase ≤ addr ∧ addr < Config.engineBase + 256 := by
  rw [inWindow, Bool.and_eq_true, decide_eq_true_iff, decide_eq_true_iff, Config.windowBytes]

/-- A 4-byte access at an offset of the window. -/
theorem portAccess_word (write : Bool) (off : Offset) (v : Word) :
    portAccess write (Config.engineBase + off.toNat) 4 v = .bus ⟨makeTd 0b1111#4 write off, v⟩ := by
  have : windowOffset (Config.engineBase + off.toNat) = off := by
    apply BitVec.eq_of_toNat_eq
    have := engineBase_mod
    simp only [windowOffset, BitVec.toNat_ofNat]
    omega
  simp [portAccess, byteEnables, this]

theorem registerRead_eq (off : Offset) : registerRead off = .bus ⟨readTd off, 0⟩ := portAccess_word false off 0

theorem registerWrite_eq (off : Offset) (v : Word) : registerWrite off v = .bus ⟨writeTd off, v⟩ := portAccess_word true off v

/-- An access at an offset of the window is delivered. -/
theorem memAccess_word (write : Bool) (off : Offset) (v : Word) :
    memAccess write (Config.engineBase + off.toNat) 4 v = some (.bus ⟨makeTd 0b1111#4 write off, v⟩) := by
  rw [memAccess, if_pos ((inWindow_iff _).mpr ⟨by omega, by have := off.isLt; omega⟩), portAccess_word]

@[simp] theorem event_wr (r : Reg) (v : Word) : (Stmt.wr r v).event = some (registerWrite r.offset v) := by
  rw [registerWrite_eq]; exact memAccess_word true _ v

@[simp] theorem event_rd (r : Reg) : (Stmt.rd r).event = some (registerRead r.offset) := by
  rw [registerRead_eq]; exact memAccess_word false _ 0

@[simp] theorem event_label (l : Nat) : (Stmt.label l).event = none := rfl

@[simp] theorem event_bnz (r : Reg) (bit l : Nat) : (Stmt.bnz r bit l).event = none := rfl

theorem writeCommand_eq (c : Command) : writeCommand c = .bus ⟨writeTd 0x00#8, encodeCommand c⟩ := registerWrite_eq _ _

theorem writeBlockWord_eq (j : Fin 16) (v : Word) : writeBlockWord j v = .bus ⟨writeTd (offsetOfM j), v⟩ :=
  registerWrite_eq _ v

theorem readHashWord_eq (i : Fin 8) : readHashWord i = .bus ⟨readTd (offsetOfH i), 0⟩ := registerRead_eq _

theorem readStatus_eq : readStatus = .bus ⟨readTd 0x04#8, 0⟩ := registerRead_eq _

theorem step_wrM {s : State} {j : Fin 16} {v : Word} {rest : List Event}
    (h : s.inputs = writeBlockWord j v :: rest) (hb : s.status.busy = false) :
   step s = .next { s with m := s.m.set j v, response := .ack, inputs := rest } := by
  rw [step_cons h, writeBlockWord_eq, takeEvent_ok (decode_wrM j v), exec_wrM]; simp [hb, State.acked]

theorem step_readStatus {s : State} {rest : List Event} (h : s.inputs = readStatus :: rest) :
   step s = .next { s with response := .data s.status.word, inputs := rest } := by
  rw [step_cons h, readStatus_eq, takeEvent_ok (decode_rdStatus 0), exec_rdStatus]; simp [State.returns]

theorem step_readHash {s : State} {i : Fin 8} {rest : List Event} (h : s.inputs = readHashWord i :: rest)
    (hb : s.status.busy = false) :
   step s = .next { s with response := .data s.h[i], inputs := rest } := by
  rw [step_cons h, readHashWord_eq, takeEvent_ok (decode_rdH i 0), exec_rdH]; simp [hb, State.returns]

theorem step_command {s : State} {c : Command} {rest : List Event} (h : s.inputs = writeCommand c :: rest) :
   step s = exec c.instr { s with inputs := rest } := by
  rw [step_cons h, writeCommand_eq, takeEvent_ok (decode_wrCmd _), exec_wrCmd_of_ok (decodeCommand_encodeCommand c)]

/-- M after the words of the given indices are written, in order. -/
theorem blockWords_run (b : Vector Word 16) (js : List (Fin 16)) : ∀ {s : State} {rest : List Event},
    s.status.busy = false → s.inputs = js.map (fun j => writeBlockWord j b[j]) ++ rest →
    ∃ rs t, trace js.length s = some (rs, t) ∧
      t = { s with m := js.foldl (fun (m : Vector Word 16) (j : Fin 16) => m.set j b[j]) s.m,
                    response := t.response, inputs := rest } := by
  induction js with
  | nil => intro s rest _ hi; exact ⟨[], s, rfl, by simp at hi; simp [← hi]⟩
  | cons j js ih =>
    intro s rest hb hi
    have hs := step_wrM (rest := js.map (fun j => writeBlockWord j b[j]) ++ rest) hi hb
    obtain ⟨rs, t, ht, he⟩ := ih (rest := rest) (s := { s with
      m := s.m.set j b[j], response := .ack, inputs := js.map (fun j => writeBlockWord j b[j]) ++ rest }) hb rfl
    exact ⟨.ack :: rs, t, by rw [List.length_cons, trace_succ hs]; erw [ht]; rfl, he⟩

theorem foldl_set_all (b m : Vector Word 16) :
    (List.finRange 16).foldl (fun (m : Vector Word 16) (j : Fin 16) => m.set j b[j]) m = b := by
  have : List.finRange 16 = [0,1,2,3,4,5,6,7,8,9,10,11,12,13,14,15] := by decide
  rw [this]
  apply Vector.ext
  intro i hi
  simp only [List.foldl]
  interval_cases i <;> simp

/-- Reads of STATUS change nothing and return the same word. -/
theorem poll_run (n : Nat) : ∀ {s : State} {rest : List Event},
    s.inputs = List.replicate n readStatus ++ rest →
    ∃ t, trace n s = some (List.replicate n (.data s.status.word), t) ∧
      t = { s with response := t.response, inputs := rest } := by
  induction n with
  | zero => intro s rest hi; exact ⟨s, rfl, by simp at hi; simp [← hi]⟩
  | succ n ih =>
    intro s rest hi
    have hs := step_readStatus (s := s) (by simpa [List.replicate_succ] using hi)
    obtain ⟨t, ht, he⟩ := ih (rest := rest) (s := { s with
      response := .data s.status.word, inputs := List.replicate n readStatus ++ rest }) rfl
    exact ⟨t, by rw [trace_succ hs, ht]; rfl, he⟩

/-- Reads of H words while idle. -/
theorem digest_run (is : List (Fin 8)) : ∀ {s : State} {rest : List Event},
    s.status.busy = false → s.inputs = is.map readHashWord ++ rest →
    ∃ t, trace is.length s = some ((is.map fun i => s.h[i]).map .data, t) ∧
      t = { s with response := t.response, inputs := rest } := by
  induction is with
  | nil => intro s rest _ hi; exact ⟨s, rfl, by simp at hi; simp [← hi]⟩
  | cons i is ih =>
    intro s rest hb hi
    have hs := step_readHash (rest := is.map readHashWord ++ rest) hi hb
    obtain ⟨t, ht, he⟩ := ih (rest := rest) (s := { s with
      response := .data s.h[i], inputs := is.map readHashWord ++ rest }) hb rfl
    exact ⟨t, by rw [List.length_cons, trace_succ hs]; erw [ht]; rfl, he⟩

theorem blocksEvents_nil (polls : List Nat) : blocksEvents [] polls = [] := by cases polls <;> rfl

theorem blocksEvents_cons (b : Vector Word 16) (bs : List (Vector Word 16)) (n : Nat) (ns : List Nat) :
    blocksEvents (b :: bs) (n :: ns) = blockEvents b n ++ blocksEvents bs ns := by simp [blocksEvents]

/-! ## Padding, parsing, bytes -/

theorem be64_length (x : Nat) : (be64 x).length = 8 := rfl

theorem padZeros_eq (n : Nat) : padZeros n ≤ 63 ∧ (padZeros n + n) % 64 = 55 := by unfold padZeros; omega

theorem pad_length (msg : List Byte) : (pad msg).length = 64 * blockCount msg.length := by
  have := padZeros_eq msg.length
  simp only [pad, List.length_append, List.length_replicate, be64_length, List.length_singleton, blockCount]
  omega

theorem byteBlocks_length (n : Nat) : ∀ b, (byteBlocks n b).length = n := by
  induction n with
  | zero => intro b; rfl
  | succ n ih => intro b; simp [byteBlocks, ih]

theorem byteBlocks_get (n : Nat) : ∀ (b : List Byte) (i : Nat), i < n →
    (byteBlocks n b)[i]? = some ((b.drop (64 * i)).take 64) := by
  induction n with
  | zero => intro b i h; omega
  | succ n ih =>
    intro b i h
    rcases i with _ | i
    · simp [byteBlocks, Config.blockBytes]
    · simp only [byteBlocks, List.getElem?_cons_succ, ih _ i (by omega), List.drop_drop, Config.blockBytes]
      congr 3; omega

theorem be32_bytesBE (w : Word) :
    be32 (w.extractLsb' 24 8) (w.extractLsb' 16 8) (w.extractLsb' 8 8) (w.extractLsb' 0 8) = w := by
  apply BitVec.eq_of_getLsbD_eq; intro i hi
  simp only [be32, BitVec.getLsbD_append, BitVec.getLsbD_extractLsb']
  interval_cases i <;> simp

theorem be32_byte (b0 b1 b2 b3 : Byte) : ∀ k < 4,
    (be32 b0 b1 b2 b3).extractLsb' (24 - 8 * k) 8 = [b0, b1, b2, b3].getD k 0 := by
  intro k hk
  interval_cases k <;>
    (apply BitVec.eq_of_getLsbD_eq; intro i hi
     simp only [be32, BitVec.getLsbD_append, BitVec.getLsbD_extractLsb']
     interval_cases i <;> simp)

theorem byteBlocks_add (k n : Nat) : ∀ b, byteBlocks (k + n) b = byteBlocks k b ++ byteBlocks n (b.drop (64 * k)) := by
  induction k with
  | zero => intro b; simp [byteBlocks]
  | succ k ih =>
    intro b
    rw [Nat.add_right_comm, byteBlocks, ih, byteBlocks, List.drop_drop, List.cons_append, Config.blockBytes,
      show 64 + 64 * k = 64 * (k + 1) by omega]

theorem byteBlocks_append (k : Nat) : ∀ (b c : List Byte), 64 * k ≤ b.length →
    byteBlocks k (b ++ c) = byteBlocks k b := by
  induction k with
  | zero => intro b c _; rfl
  | succ k ih =>
    intro b c h
    rw [byteBlocks, byteBlocks, Config.blockBytes, List.take_append_of_le_length (by omega),
      List.drop_append_of_le_length (by omega), ih _ _ (by simp; omega)]

theorem chain_append (h : Vector Word 8) (x y : List (Vector Word 16)) : chain h (x ++ y) = chain (chain h x) y :=
  List.foldl_append

theorem vector8_toList (h : Vector Word 8) : h.toList = [h[0], h[1], h[2], h[3], h[4], h[5], h[6], h[7]] := by
  apply List.ext_getElem
  · simp
  · intro n h1 h2
    simp at h1
    interval_cases n <;> simp

end Sys2Proof.Machine
end

