-- ==== Sys2Proof/Laws/PerInstr.lean ====
section
/-! SUPPORT. The round trip of the encoding, one lemma per constructor of Instr. -/

namespace Sys2Proof.Laws.RoundTrip

/-- The encoding of a well-formed instruction decodes to it. -/
def Statement (i : Instr) : Prop := i.wellFormed = true → decode (encode i) = .ok i

theorem nop : Statement .nop := fun _ => rfl
theorem initSha256 : Statement .initSha256 := fun _ => rfl
theorem initSha224 : Statement .initSha224 := fun _ => rfl
theorem compress : Statement .compress := fun _ => rfl
theorem zeroize : Statement .zeroize := fun _ => rfl
theorem rdCmd : Statement .rdCmd := fun _ => rfl
theorem wrCmd (v : Word) : Statement (.wrCmd v) := fun _ => rfl
theorem rdStatus : Statement .rdStatus := fun _ => rfl
theorem wrStatus (v : Word) : Statement (.wrStatus v) := fun _ => rfl
theorem rdCtrl : Statement .rdCtrl := fun _ => rfl
theorem wrCtrl (v : Word) : Statement (.wrCtrl v) := fun _ => rfl
theorem rdInfo : Statement .rdInfo := fun _ => rfl
theorem wrInfo (v : Word) : Statement (.wrInfo v) := fun _ => rfl
theorem rdRsvdLo (off : Offset) : Statement (.rdRsvdLo off) := fun h => decode_rdRsvdLo h 0
theorem wrRsvdLo (off : Offset) (v : Word) : Statement (.wrRsvdLo off v) := fun h => decode_wrRsvdLo h v
theorem rdH (i : Fin 8) : Statement (.rdH i) := fun _ => decode_rdH i 0
theorem wrH (i : Fin 8) (v : Word) : Statement (.wrH i v) := fun _ => decode_wrH i v
theorem rdM (j : Fin 16) : Statement (.rdM j) := fun _ => decode_rdM j 0
theorem wrM (j : Fin 16) (v : Word) : Statement (.wrM j v) := fun _ => decode_wrM j v
theorem rdRsvdHi (off : Offset) : Statement (.rdRsvdHi off) := fun h => decode_rdRsvdHi h 0
theorem wrRsvdHi (off : Offset) (v : Word) : Statement (.wrRsvdHi off v) := fun h => decode_wrRsvdHi h v

end Sys2Proof.Laws.RoundTrip
end

