-- ==== Sys2Proof/Laws/Script.lean ====
section
/-! SUPPORT. The script of the host's procedure: where each statement leaves host and engine, what its runs return, and that
a message in pieces presents the same script. -/

namespace Sys2Proof.Machine

open Sys2Proof.Laws

/-! ## Statements one by one -/

theorem ScriptHost.lookup {p : ScriptHost} {st : Stmt} {rest : List Stmt} (h : p.script.drop p.position = st :: rest) :
    p.script[p.position]? = some st ∧ p.script.drop (p.position + 1) = rest ∧ p.position < p.script.length := by
  have hl : p.position < p.script.length := by
    by_contra hn
    rw [List.drop_eq_nil_of_le (Nat.le_of_not_lt hn)] at h
    cases h
  rw [List.drop_eq_getElem_cons hl] at h
  cases h
  exact ⟨List.getElem?_eq_getElem hl, rfl, hl⟩

theorem hostTurn_wr {p : ScriptHost} {s t : State} {r : Reg} {v : Word} {rest : List Stmt}
    (h : p.script.drop p.position = .wr r v :: rest)
    (ht : step { s with inputs := registerWrite r.offset v :: s.inputs } = .next t) :
    hostTurn p s = ({ p with position := p.position + 1 }, .next t) := by
  simp only [hostTurn, (ScriptHost.lookup h).1, event_wr, ht]
  rfl

theorem hostTurn_rd {p : ScriptHost} {s t : State} {r : Reg} {x : Word} {rest : List Stmt}
    (h : p.script.drop p.position = .rd r :: rest)
    (ht : step { s with inputs := registerRead r.offset :: s.inputs } = .next t) (hx : t.response = .data x) :
    hostTurn p s = ({ p with position := p.position + 1, reads := (r, x) :: p.reads }, .next t) := by
  simp only [hostTurn, (ScriptHost.lookup h).1, event_rd, ht, ScriptHost.record, hx]

theorem hostTurn_label {p : ScriptHost} {l : Nat} {rest : List Stmt} (h : p.script.drop p.position = .label l :: rest)
    (s : State) : hostTurn p s = ({ p with position := p.position + 1 }, .next s) := by
  simp only [hostTurn, (ScriptHost.lookup h).1]

theorem hostTurn_bnz {p : ScriptHost} {r : Reg} {bit l : Nat} {rest : List Stmt}
    (h : p.script.drop p.position = .bnz r bit l :: rest) (s : State) : hostTurn p s = (p.branch r bit l, .next s) := by
  simp only [hostTurn, (ScriptHost.lookup h).1]

/-- A label that the front of a script does not hold stands where it is first written. -/
theorem drop_labelPosition {front rest : List Stmt} {l : Nat} (h : .label l ∉ front) :
    (front ++ .label l :: rest).drop (labelPosition (front ++ .label l :: rest) l) = .label l :: rest := by
  have hf : front.findIdx (· == .label l) = front.length := by
    rw [List.findIdx_eq_length]
    intro x hx
    simp only [beq_eq_false_iff_ne]
    rintro rfl
    exact h hx
  rw [labelPosition, List.findIdx_append, hf, if_neg (Nat.lt_irrefl _)]
  simp [List.findIdx_cons]

/-! ## The shape of the procedure's script -/

theorem blocksScript_append (f : Nat) (xs ys : List (List Byte)) :
    blocksScript f (xs ++ ys) = blocksScript f xs ++ blocksScript (f + xs.length) ys := by
  simp [blocksScript, List.zipIdx_append]

theorem blocksScript_cons (f : Nat) (b : List Byte) (bs : List (List Byte)) :
    blocksScript f (b :: bs) = blockScript b f ++ blocksScript (f + 1) bs := by
  simp [blocksScript, List.zipIdx_cons]

theorem label_mem_blocksScript {l : Nat} : ∀ {f : Nat} {bs : List (List Byte)}, .label l ∈ blocksScript f bs →
    f ≤ l ∧ l < f + bs.length := by
  intro f bs
  induction bs generalizing f with
  | nil => intro h; simp [blocksScript] at h
  | cons b bs ih =>
    intro h
    rw [blocksScript_cons, List.mem_append] at h
    rcases h with h | h
    · have : l = f := by simpa [blockScript, Pseudo.expand] using h
      simp only [List.length_cons]; omega
    · have := ih h
      simp only [List.length_cons]; omega

/-- The reads of RDH. -/
def digestReads (v : Variant) : List Stmt := ((List.finRange 8).take (digestWords v)).map fun i => .rd (.h i)

/-- The procedure's script for blocks of bytes. -/
def procedureScript (v : Variant) (blocks : List (List Byte)) : List Stmt :=
  .wr .cmd (encodeCommand (.init v)) :: (blocksScript 0 blocks ++ digestReads v)

theorem hashScript_ok (v : Variant) {msg : List Byte} (h : lengthFits msg = true) :
    hashScript v msg = .ok (procedureScript v (byteBlocks (blockCount msg.length) (pad msg))) := by
  rw [hashScript, if_pos h]
  simp only [Pseudo.expand, procedureScript, List.singleton_append]
  cases v <;> rfl

/-- The statement that writes word j of a block. -/
def loadWord (b : List Byte) (j : Fin 16) : Stmt := .wr (.m j) (blockWord b j.val)

/-- What follows the COMPRESS of a block. -/
def waitThen (l : Nat) (rest : List Stmt) : List Stmt := .label l :: .rd .status :: .bnz .status 0 l :: rest

theorem blockScript_eq (b : List Byte) (l : Nat) (rest : List Stmt) : blockScript b l ++ rest =
    (List.finRange 16).map (loadWord b) ++ .wr .cmd (encodeCommand .compress) :: waitThen l rest := by
  simp [blockScript, Pseudo.expand, waitThen, loadWord]

theorem getElem_parseBlock (b : List Byte) (j : Fin 16) : (parseBlock b)[j] = blockWord b j.val := by
  rcases j with ⟨j, hj⟩
  interval_cases j <;> rfl

/-! ## Where the procedure stands -/

/-- H after some blocks. -/
def chainAfter (v : Variant) (done : List (List Byte)) : Vector Word 8 := chain (initialHash v) (done.map parseBlock)

/-- A block whose COMPRESS was accepted: in flight, or complete. -/
def Compressing (v : Variant) (done : List (List Byte)) (b : List Byte) (s : State) : Prop :=
  s.m = parseBlock b ∧
    ((s.status.busy = true ∧ s.h = chainAfter v done) ∨ (s.status.busy = false ∧ s.h = chainAfter v (done ++ [b])))

/-- Where a run of the procedure stands: the statements still to come, what has been read, and the engine's state. -/
inductive Stage (v : Variant) (blocks : List (List Byte)) : List Stmt → List (Reg × Word) → State → Prop
  | start {s : State} {reads : List (Reg × Word)} (hb : s.status.busy = false) :
      Stage v blocks (procedureScript v blocks) reads s
  | load {s : State} {reads : List (Reg × Word)} (done : List (List Byte)) (b : List Byte) (rest : List (List Byte))
      (before after : List (Fin 16)) (hB : blocks = done ++ b :: rest) (hj : before ++ after = List.finRange 16)
      (hb : s.status.busy = false) (hh : s.h = chainAfter v done) (hm : ∀ j ∈ before, s.m[j] = (parseBlock b)[j]) :
      Stage v blocks (after.map (loadWord b) ++ .wr .cmd (encodeCommand .compress) ::
        waitThen done.length (blocksScript (done.length + 1) rest ++ digestReads v)) reads s
  | label {s : State} {reads : List (Reg × Word)} (done : List (List Byte)) (b : List Byte) (rest : List (List Byte))
      (hB : blocks = done ++ b :: rest) (hc : Compressing v done b s) :
      Stage v blocks (waitThen done.length (blocksScript (done.length + 1) rest ++ digestReads v)) reads s
  | poll {s : State} {reads : List (Reg × Word)} (done : List (List Byte)) (b : List Byte) (rest : List (List Byte))
      (hB : blocks = done ++ b :: rest) (hc : Compressing v done b s) :
      Stage v blocks (.rd .status :: .bnz .status 0 done.length ::
        (blocksScript (done.length + 1) rest ++ digestReads v)) reads s
  | test {s : State} {reads : List (Reg × Word)} (done : List (List Byte)) (b : List Byte) (rest : List (List Byte)) (w : Word)
      (hB : blocks = done ++ b :: rest) (hc : Compressing v done b s) (hw : w.getLsbD 0 = false → s.status.busy = false) :
      Stage v blocks (.bnz .status 0 done.length ::
        (blocksScript (done.length + 1) rest ++ digestReads v)) ((.status, w) :: reads) s
  | digest {s : State} {reads : List (Reg × Word)} (before after : List (Fin 8))
      (hi : before ++ after = (List.finRange 8).take (digestWords v)) (hb : s.status.busy = false)
      (hh : s.h = chainAfter v blocks) :
      Stage v blocks (after.map fun i => .rd (.h i)) ((before.map fun i => (Reg.h i, s.h[i])).reverse ++ reads) s

/-- After a block, the next one or the digest. -/
theorem Stage.next {v : Variant} {blocks : List (List Byte)} {s : State} (reads : List (Reg × Word))
    (done rest : List (List Byte)) (hB : blocks = done ++ rest) (hb : s.status.busy = false) (hh : s.h = chainAfter v done) :
    Stage v blocks (blocksScript done.length rest ++ digestReads v) reads s := by
  cases rest with
  | nil => exact .digest [] _ (List.nil_append _) hb (by rw [hh, hB, List.append_nil])
  | cons b rest =>
    rw [blocksScript_cons, List.append_assoc, blockScript_eq]
    exact .load done b rest [] _ hB (List.nil_append _) hb hh (by simp)

/-- The procedure's script runs on p, the machine stands where it should, and the error bits are those of s0. -/
structure OnProcedure (v : Variant) (blocks : List (List Byte)) (s0 : State) (p : ScriptHost) (s : State) : Prop where
  script  : p.script = procedureScript v blocks
  stage   : Stage v blocks (p.script.drop p.position) p.reads s
  errIll  : s.status.errIll = s0.status.errIll
  errBusy : s.status.errBusy = s0.status.errBusy
  errAcc  : s.status.errAcc = s0.status.errAcc

/-- If the next statement is a branch, it falls through. -/
def Falls (p : ScriptHost) : Prop := ∀ r bit l rest, p.script.drop p.position = .bnz r bit l :: rest →
  ((p.lastRead r).getD 0).getLsbD bit = false

theorem no_branch_ahead (f : Nat) (bs : List (List Byte)) (v : Variant) (r : Reg) (bit l : Nat) (rest : List Stmt) :
    blocksScript f bs ++ digestReads v ≠ .bnz r bit l :: rest := by
  intro h
  cases bs with
  | nil => cases v <;> simp [blocksScript, digestReads, digestWords, List.finRange_succ] at h
  | cons b bs =>
    rw [blocksScript_cons, List.append_assoc, blockScript_eq, List.finRange_succ] at h
    simp [loadWord] at h

theorem Compressing.complete {v : Variant} {done : List (List Byte)} {b : List Byte} {s : State}
    (h : Compressing v done b s) : Compressing v done b s.engineTurn := by
  obtain ⟨hm, ⟨hb, hh⟩ | ⟨hb, hh⟩⟩ := h
  · refine ⟨by simpa using hm, .inr ⟨by simp [hb], ?_⟩⟩
    simp [hb, hh, hm, chainAfter, chain]
  · exact ⟨by simpa using hm, .inr ⟨by simp [hb], by simpa [hb] using hh⟩⟩

theorem engineTurn_idle (s : State) : s.engineTurn.status.busy = false := by
  cases hb : s.status.busy <;> simp [hb]

/-- A turn of the engine keeps the run on the procedure. -/
theorem OnProcedure.engine {v : Variant} {blocks : List (List Byte)} {s0 s : State} {p : ScriptHost}
    (h : OnProcedure v blocks s0 p s) : OnProcedure v blocks s0 p s.engineTurn := by
  obtain ⟨hs, hst, h1, h2, h3⟩ := h
  have he : ∀ s : State, s.engineTurn.status.errIll = s.status.errIll ∧ s.engineTurn.status.errBusy = s.status.errBusy ∧
      s.engineTurn.status.errAcc = s.status.errAcc := fun s => by
    cases hb : s.status.busy <;> simp [hb, Status.completed]
  refine ⟨hs, ?_, (he s).1.trans h1, (he s).2.1.trans h2, (he s).2.2.trans h3⟩
  have idle : s.status.busy = false → s.engineTurn.h = s.h := fun hb => by simp [hb]
  generalize p.script.drop p.position = l at hst
  generalize p.reads = reads at hst
  cases hst with
  | start => exact .start (engineTurn_idle s)
  | load done b rest before after hB hj hb hh hm =>
    exact .load done b rest before after hB hj (engineTurn_idle s) ((idle hb).trans hh) (by simpa using hm)
  | label done b rest hB hc => exact .label done b rest hB hc.complete
  | poll done b rest hB hc => exact .poll done b rest hB hc.complete
  | test done b rest w hB hc hw => exact .test done b rest w hB hc.complete fun _ => engineTurn_idle s
  | digest before after hi hb hh =>
    have := Stage.digest (blocks := blocks) (reads := ‹_›) before after hi (engineTurn_idle s) ((idle hb).trans hh)
    rwa [idle hb] at this

/-- A turn of the host keeps the run on the procedure. While the engine is idle and no branch is taken, it also goes one
statement on, and no branch is taken next. -/
theorem OnProcedure.host {v : Variant} {blocks : List (List Byte)} {s0 s : State} {p : ScriptHost}
    (h : OnProcedure v blocks s0 p s) (hl : p.position < p.script.length) :
    ∃ q t, hostTurn p s = (q, .next t) ∧ OnProcedure v blocks s0 q t ∧
      (s.status.busy = false → Falls p → q.position = p.position + 1 ∧ Falls q) := by
  obtain ⟨hs, hst, h1, h2, h3⟩ := h
  generalize hd : p.script.drop p.position = l at hst
  generalize hr : p.reads = reads at hst
  cases hst with
  | start hb =>
    obtain ⟨-, hn, -⟩ := ScriptHost.lookup hd
    obtain ⟨t, ht, hh, hst⟩ : ∃ t, step { s with inputs := registerWrite Reg.cmd.offset (encodeCommand (.init v)) :: s.inputs } =
        .next t ∧ t.h = initialHash v ∧ t.status = s.status := by
      have := step_command (s := { s with inputs := writeCommand (.init v) :: s.inputs }) rfl
      cases v with
      | sha256 => rw [Command.instr, exec_initSha256, if_neg (by simp [hb])] at this; exact ⟨_, this, rfl, rfl⟩
      | sha224 => rw [Command.instr, exec_initSha224, if_neg (by simp [hb])] at this; exact ⟨_, this, rfl, rfl⟩
    refine ⟨_, t, hostTurn_wr hd ht, ⟨hs, ?_, by rw [hst, h1], by rw [hst, h2], by rw [hst, h3]⟩, fun _ _ => ⟨rfl, ?_⟩⟩
    · simp only [hn]
      exact Stage.next _ [] blocks rfl (by rw [hst, hb]) (by rw [hh]; rfl)
    · intro r bit l rest hx
      exact absurd (hn.symm.trans hx) (no_branch_ahead _ _ _ _ _ _ _)
  | load done b rest before after hB hj hb hh hm =>
    cases after with
    | nil =>
      obtain ⟨-, hn, -⟩ := ScriptHost.lookup hd
      have hc := step_command (s := { s with inputs := writeCommand .compress :: s.inputs }) rfl
      rw [Command.instr, exec_compress, if_neg (by simp [hb])] at hc
      have hmb : s.m = parseBlock b := by
        rw [List.append_nil] at hj
        apply Vector.ext
        intro i hi
        exact hm ⟨i, hi⟩ (by rw [hj]; exact List.mem_finRange _)
      refine ⟨_, _, hostTurn_wr hd hc, ⟨hs, ?_, h1, h2, h3⟩, fun _ _ => ⟨rfl, ?_⟩⟩
      · simp only [hn]
        exact .label done b rest hB ⟨hmb, .inl ⟨rfl, hh⟩⟩
      · intro r bit l rest' hx
        cases hn.symm.trans hx
    | cons j after =>
      obtain ⟨-, hn, -⟩ := ScriptHost.lookup hd
      have hw := step_wrM (s := { s with inputs := writeBlockWord j (blockWord b j.val) :: s.inputs }) (rest := s.inputs) rfl hb
      refine ⟨_, _, hostTurn_wr hd hw, ⟨hs, ?_, h1, h2, h3⟩, fun _ _ => ⟨rfl, ?_⟩⟩
      · simp only [hn]
        refine .load done b rest (before ++ [j]) after hB (by simpa using hj) hb hh fun i hi => ?_
        rw [getElem_parseBlock]
        by_cases hij : i = j
        · subst hij; simp
        · have hi' : i ∈ before := by
            rcases List.mem_append.mp hi with h | h
            · exact h
            · exact absurd (List.mem_singleton.mp h) hij
          have := hm i hi'
          rw [getElem_parseBlock] at this
          rw [← this]
          exact Vector.getElem_set_ne j.isLt i.isLt (fun h => hij (Fin.ext h.symm))
      · intro r bit l rest' hx
        have := hn.symm.trans hx
        cases after <;> simp [loadWord] at this
  | label done b rest hB hc =>
    obtain ⟨-, hn, -⟩ := ScriptHost.lookup hd
    refine ⟨_, s, hostTurn_label hd s, ⟨hs, ?_, h1, h2, h3⟩, fun _ _ => ⟨rfl, ?_⟩⟩
    · simp only [hn]
      exact .poll done b rest hB hc
    · intro r bit l rest' hx
      cases hn.symm.trans hx
  | poll done b rest hB hc =>
    obtain ⟨-, hn, -⟩ := ScriptHost.lookup hd
    have hp := step_readStatus (s := { s with inputs := readStatus :: s.inputs }) (rest := s.inputs) rfl
    refine ⟨_, _, hostTurn_rd hd hp rfl, ⟨hs, ?_, h1, h2, h3⟩, fun hb _ => ⟨rfl, ?_⟩⟩
    · simp only [hn]
      refine .test done b rest _ hB hc fun hw => ?_
      rw [Status.getLsbD_word] at hw
      exact hw
    · intro r bit l rest' hx
      cases hn.symm.trans hx
      simp only [ScriptHost.lastRead, List.find?_cons, BEq.rfl, Option.map_some, Option.getD_some]
      rw [Status.getLsbD_word]
      exact hb
  | test done b rest w hB hc hw =>
    obtain ⟨-, hn, -⟩ := ScriptHost.lookup hd
    have hlast : (p.lastRead .status).getD 0 = w := by simp [ScriptHost.lastRead, hr]
    cases hwb : w.getLsbD 0 with
    | false =>
      have hb := hw hwb
      have hh : s.h = chainAfter v (done ++ [b]) := by
        rcases hc.2 with h | h
        · simp [hb] at h
        · exact h.2
      refine ⟨_, s, hostTurn_bnz hd s, ?_, fun _ _ => ?_⟩
      all_goals simp only [ScriptHost.branch, hlast, hwb, Bool.false_eq_true, if_false]
      · refine ⟨hs, ?_, h1, h2, h3⟩
        simp only [hn]
        have := Stage.next (v := v) (blocks := blocks) (s := s) p.reads (done ++ [b]) rest (by rw [hB]; simp) hb hh
        simpa using this
      · refine ⟨trivial, fun r bit l rest' hx => ?_⟩
        exact absurd (hn.symm.trans hx) (no_branch_ahead _ _ _ _ _ _ _)
    | true =>
      refine ⟨_, s, hostTurn_bnz hd s, ?_, fun _ hf => ?_⟩
      · simp only [ScriptHost.branch, hlast, hwb, if_true]
        refine ⟨hs, ?_, h1, h2, h3⟩
        simp only
        have hS : p.script = (.wr .cmd (encodeCommand (.init v)) :: (blocksScript 0 done ++
            ((List.finRange 16).map (loadWord b) ++ [.wr .cmd (encodeCommand .compress)]))) ++
            .label done.length :: (.rd .status :: .bnz .status 0 done.length ::
              (blocksScript (done.length + 1) rest ++ digestReads v)) := by
          rw [hs, procedureScript, hB, blocksScript_append, blocksScript_cons, List.append_assoc, List.append_assoc,
            blockScript_eq]
          simp [waitThen]
        rw [hS, drop_labelPosition]
        · exact .label done b rest hB hc
        · intro hmem
          simp only [List.mem_cons, List.mem_append, List.mem_map, loadWord] at hmem
          rcases hmem with h | h | ⟨_, _, h⟩ | h | h
          · cases h
          · have := label_mem_blocksScript h; omega
          · cases h
          · cases h
          · cases h
      · have := hf _ _ _ _ hd
        rw [hlast, hwb] at this
        cases this
  | digest before after hi hb hh =>
    cases after with
    | nil => rw [List.map_nil, List.drop_eq_nil_iff] at hd; omega
    | cons i after =>
      obtain ⟨-, hn, -⟩ := ScriptHost.lookup hd
      have hw := step_readHash (s := { s with inputs := readHashWord i :: s.inputs }) (rest := s.inputs) rfl hb
      refine ⟨_, _, hostTurn_rd hd hw rfl, ⟨hs, ?_, h1, h2, h3⟩, fun _ _ => ⟨rfl, ?_⟩⟩
      · simp only [hn, hr]
        have := Stage.digest (blocks := blocks) (s := { s with response := .data s.h[i] }) (reads := ‹_›) (before ++ [i]) after
          (by simpa using hi) hb hh
        simpa using this
      · intro r bit l rest' hx
        have := hn.symm.trans hx
        cases after <;> simp at this

/-! ## Runs of the procedure -/

theorem step_engine (s : State) : step { s with inputs := .engine :: s.inputs } = .next s.engineTurn := by
  rw [step_cons rfl]; rfl

theorem hostTurn_ended {p : ScriptHost} (h : p.script.length ≤ p.position) (s : State) : hostTurn p s = (p, .next s) := by
  rw [hostTurn, List.getElem?_eq_none h]

/-- Every run keeps to the procedure. -/
theorem OnProcedure.run {v : Variant} {blocks : List (List Byte)} {s0 : State} {q : ScriptHost} {t : State} :
    ∀ {turns : List Turn} {p : ScriptHost} {s : State}, OnProcedure v blocks s0 p s →
      runScript turns p s = some (q, t) → OnProcedure v blocks s0 q t := by
  intro turns
  induction turns with
  | nil => intro p s h hr; cases hr; exact h
  | cons turn turns ih =>
    intro p s h hr
    cases turn with
    | engine => rw [runScript, step_engine] at hr; exact ih h.engine hr
    | host =>
      rcases Nat.lt_or_ge p.position p.script.length with hl | hl
      · obtain ⟨q', t', hq, hp, -⟩ := h.host hl
        rw [runScript, hq] at hr
        exact ih hp hr
      · rw [runScript, hostTurn_ended hl] at hr
        exact ih h hr

/-- What the procedure returns when it has ended. -/
theorem OnProcedure.returned {v : Variant} {blocks : List (List Byte)} {s0 s : State} {p : ScriptHost} {d : List Byte}
    (h : OnProcedure v blocks s0 p s) (hd : p.returned v = some d) :
    d = serializeDigest v s.h ∧ s.h = chainAfter v blocks := by
  have hlen : p.script.length ≤ p.position := by
    by_contra hn
    rw [ScriptHost.returned, if_neg hn] at hd
    cases hd
  rw [ScriptHost.returned, if_pos hlen] at hd
  obtain ⟨hs, hst, -, -, -⟩ := h
  generalize hl : p.script.drop p.position = l at hst
  generalize hr : p.reads = reads at hst
  rw [List.drop_eq_nil_of_le hlen] at hl
  cases hst with
  | digest before after hi hb hh =>
    refine ⟨?_, hh⟩
    rw [List.map_eq_nil_iff.mp hl.symm, List.append_nil] at hi
    subst hi
    cases hd
    rw [hr, serializeDigest, vector8_toList]
    cases v <;> simp [digestWords, List.finRange_succ]
  | load => simp at hl
  | _ => cases hl

/-- From an idle engine, host and engine taking turns end the script. -/
theorem OnProcedure.ends {v : Variant} {blocks : List (List Byte)} {s0 : State} (n : Nat) : ∀ {p : ScriptHost} {s : State},
    OnProcedure v blocks s0 p s → s.status.busy = false → Falls p → p.script.length ≤ p.position + n →
    ∃ turns q t d, runScript turns p s = some (q, t) ∧ q.returned v = some d := by
  induction n with
  | zero => intro p s _ _ _ hn; exact ⟨[], p, s, _, rfl, if_pos hn⟩
  | succ n ih =>
    intro p s h hb hf hn
    rcases Nat.lt_or_ge p.position p.script.length with hl | hl
    · obtain ⟨q, t, hq, hp, hg⟩ := h.host hl
      obtain ⟨hpos, hfq⟩ := hg hb hf
      obtain ⟨turns, r, u, d, hr, hd⟩ := ih hp.engine (engineTurn_idle t) hfq (by rw [hp.script, ← h.script, hpos]; omega)
      exact ⟨.host :: .engine :: turns, r, u, d, by rw [runScript, hq]; simp only [runScript, step_engine]; exact hr, hd⟩
    · exact ⟨[], p, s, _, rfl, if_pos hl⟩

/-- A run starts on the procedure. -/
theorem OnProcedure.begin (v : Variant) (blocks : List (List Byte)) {s : State} (hb : s.status.busy = false) :
    OnProcedure v blocks s (.start (procedureScript v blocks)) s ∧ Falls (.start (procedureScript v blocks)) :=
  ⟨⟨rfl, .start hb, rfl, rfl, rfl⟩, fun _ _ _ _ h => by cases h⟩

/-! ## A message in pieces -/

/-- A context after the bytes of a message so far. -/
structure HashContext.After (c : HashContext) (v : Variant) (msg : List Byte) : Prop where
  variant   : c.variant = v
  buffer    : c.buffer = msg.drop (64 * (msg.length / 64))
  total     : c.total = msg.length
  finalized : c.finalized = false

/-- The blocks of the bytes so far, then those that new bytes fill, are the blocks of both together. -/
theorem HashContext.After.present {c : HashContext} {v : Variant} {msg : List Byte} (h : c.After v msg) (bytes : List Byte) :
    blocksScript 0 (byteBlocks (msg.length / 64) msg) ++ c.present bytes =
      blocksScript 0 (byteBlocks ((msg ++ bytes).length / 64) (msg ++ bytes)) ∧
    (fillBlocks c.buffer bytes).2 = (msg ++ bytes).drop (64 * ((msg ++ bytes).length / 64)) := by
  have hall : c.buffer ++ bytes = (msg ++ bytes).drop (64 * (msg.length / 64)) := by
    rw [h.buffer, List.drop_append_of_le_length (by omega)]
  have hn : (msg ++ bytes).length / 64 = msg.length / 64 + ((msg ++ bytes).drop (64 * (msg.length / 64))).length / 64 := by
    rw [List.length_drop, List.length_append]
    omega
  constructor
  · rw [HashContext.present, fillBlocks, h.total, Config.blockBytes, hall, hn, byteBlocks_add, blocksScript_append,
      byteBlocks_append _ _ _ (by omega), byteBlocks_length, Nat.zero_add]
  · rw [fillBlocks, Config.blockBytes, hall, List.drop_drop, hn, Nat.mul_add]

theorem HashContext.After.update {c : HashContext} {v : Variant} {msg : List Byte} (h : c.After v msg) (bytes : List Byte)
    (hl : 8 * (msg ++ bytes).length < 2 ^ 64) :
    ∃ d, updateContext c bytes = .ok (c.present bytes, d) ∧ d.After v (msg ++ bytes) := by
  rw [List.length_append] at hl
  refine ⟨{ c with buffer := (fillBlocks c.buffer bytes).2, total := c.total + bytes.length }, ?_,
    h.variant, (h.present bytes).2, ?_, h.finalized⟩
  · rw [updateContext, if_neg (by simp [h.finalized]), if_neg (by rw [h.total, Config.lengthFieldBits]; omega)]
  · rw [h.total, List.length_append]

/-- All the updates of a message: what they present is the script of the blocks that the message fills. -/
theorem HashContext.After.updates {v : Variant} : ∀ (pieces : List (List Byte)) {c : HashContext} {msg : List Byte},
    c.After v msg → 8 * (msg ++ pieces.flatten).length < 2 ^ 64 →
    ∃ script d, updateAll pieces c = .ok (script, d) ∧ d.After v (msg ++ pieces.flatten) ∧
      blocksScript 0 (byteBlocks (msg.length / 64) msg) ++ script =
        blocksScript 0 (byteBlocks ((msg ++ pieces.flatten).length / 64) (msg ++ pieces.flatten)) := by
  intro pieces
  induction pieces with
  | nil => intro c msg h _; exact ⟨[], c, rfl, by simpa using h, by simp⟩
  | cons piece pieces ih =>
    intro c msg h hl
    rw [List.flatten_cons, ← List.append_assoc] at hl ⊢
    obtain ⟨d, hd, hda⟩ := h.update piece (by rw [List.length_append] at hl; omega)
    obtain ⟨script, e, he, hea, hs⟩ := ih hda hl
    refine ⟨c.present piece ++ script, e, ?_, hea, ?_⟩
    · simp only [updateAll, hd, he]
    · rw [← List.append_assoc, (h.present piece).1, hs]

theorem pad_eq (msg : List Byte) : pad msg = msg ++ padTail msg.length := by
  simp only [pad, padTail, List.append_assoc]

/-- A message in pieces presents the script of the whole message. -/
theorem hashInPieces_eq (v : Variant) (pieces : List (List Byte)) (hl : lengthFits pieces.flatten = true) :
    ∃ c, c.finalized = true ∧ hashInPieces v pieces =
      .ok (procedureScript v (byteBlocks (blockCount pieces.flatten.length) (pad pieces.flatten)), c) := by
  have hfit : 8 * pieces.flatten.length < 2 ^ 64 := of_decide_eq_true hl
  obtain ⟨script, d, hd, hda, hs⟩ := HashContext.After.updates (v := v) pieces (c := (initContext v).2) (msg := [])
    ⟨rfl, rfl, rfl, rfl⟩ (by simpa using hfit)
  rw [List.nil_append] at hda hs
  have hp := (hda.present (padTail pieces.flatten.length)).1
  rw [← pad_eq, pad_length, Nat.mul_div_cancel_left _ (by decide)] at hp
  refine ⟨{ d with buffer := [], finalized := true }, rfl, ?_⟩
  have hb : script ++ d.present (padTail pieces.flatten.length) =
      blocksScript 0 (byteBlocks (blockCount pieces.flatten.length) (pad pieces.flatten)) := by
    rw [← hp, ← hs]; rfl
  simp only [hashInPieces, hd, finalizeContext, hda.finalized, Bool.false_eq_true, if_false, procedureScript, ← hb, hda.total,
    hda.variant]
  cases v <;> simp [initContext, Pseudo.expand, digestReads]

end Sys2Proof.Machine
end

