-- ==== Sys2Proof/Tests/Slice0.lean ====
section
/-! SUPPORT. Tests. Encodings are written out from 30_encoding.md; expected values are those of 95_test_vectors.md, by their
ids V<n>. The last sections hold the witnesses: a concrete case that meets every hypothesis of a statement. -/

namespace Sys2Proof.Tests

open Sys2Proof Sys2Proof.Machine

/-! ## Small states -/

/-- STATUS with the bits of w (R38). -/
def statusOf (w : Nat) : Status := ⟨w.testBit 0, w.testBit 1, w.testBit 2, w.testBit 3, w.testBit 4⟩

/-- The reset state with these STATUS bits. -/
def withStatus (w : Nat) : State := { State.reset with status := statusOf w }

/-- BUSY0 of 95_test_vectors.md: H = IV256, M = 0, a compression in flight. -/
def busy0 : State := { State.reset with h := iv256, status := statusOf 0x01 }

/-- Every register holds a value of its own, so that a swapped index shows. -/
def distinct : State := { State.reset with
  h := #v[10, 11, 12, 13, 14, 15, 16, 17],
  m := #v[20, 21, 22, 23, 24, 25, 26, 27, 28, 29, 30, 31, 32, 33, 34, 35] }

/-- The state after one transaction. -/
def one (s : State) (td : Td) (v : Word) : Option State := stateAfter 1 { s with inputs := [.bus ⟨td, v⟩] }

/-! ## Well-formedness: each check refuses an ill-formed term and takes the ends of its range -/

theorem test_wf_rdRsvdLo_refuses : (Instr.rdRsvdLo 0x0C).wellFormed = false ∧ (Instr.rdRsvdLo 0x11).wellFormed = false ∧
    (Instr.rdRsvdLo 0x20).wellFormed = false ∧ (Instr.rdRsvdLo 0x90).wellFormed = false := by decide
theorem test_wf_wrRsvdLo_refuses : (Instr.wrRsvdLo 0x0C 0).wellFormed = false ∧ (Instr.wrRsvdLo 0x12 0).wellFormed = false ∧
    (Instr.wrRsvdLo 0x20 0).wellFormed = false := by decide
theorem test_wf_rdRsvdHi_refuses : (Instr.rdRsvdHi 0x7C).wellFormed = false ∧ (Instr.rdRsvdHi 0x81).wellFormed = false ∧
    (Instr.rdRsvdHi 0x10).wellFormed = false := by decide
theorem test_wf_wrRsvdHi_refuses : (Instr.wrRsvdHi 0x7C 0).wellFormed = false ∧ (Instr.wrRsvdHi 0xFE 0).wellFormed = false ∧
    (Instr.wrRsvdHi 0x10 0).wellFormed = false := by decide

/-! ## Decoding: every constructor from a word written out from R90 to R97 -/

-- {RSV, VAR, OP} of R90 to R92
theorem test_decode_commands :
    decode (.command 0b00000000000000000000000000000000#32) = .ok .nop ∧
    decode (.command 0b00000000000000000000000000000001#32) = .ok .initSha256 ∧
    decode (.command 0b00000000000000000000000000010001#32) = .ok .initSha224 ∧
    decode (.command 0b00000000000000000000000000000010#32) = .ok .compress ∧
    decode (.command 0b00000000000000000000000000000011#32) = .ok .zeroize := by decide

-- {BE, WE, OFF} of R96 and the OFF patterns of R97
theorem test_decode_system_registers :
    decode (.transaction 0b1111000000000#13 9) = .ok .rdCmd ∧
    decode (.transaction 0b1111100000000#13 9) = .ok (.wrCmd 9) ∧
    decode (.transaction 0b1111000000100#13 9) = .ok .rdStatus ∧
    decode (.transaction 0b1111100000100#13 9) = .ok (.wrStatus 9) ∧
    decode (.transaction 0b1111000001000#13 9) = .ok .rdCtrl ∧
    decode (.transaction 0b1111100001000#13 9) = .ok (.wrCtrl 9) ∧
    decode (.transaction 0b1111000001100#13 9) = .ok .rdInfo ∧
    decode (.transaction 0b1111100001100#13 9) = .ok (.wrInfo 9) := by decide
theorem test_decode_data_registers :
    decode (.transaction 0b1111000100000#13 9) = .ok (.rdH 0) ∧
    decode (.transaction 0b1111000101000#13 9) = .ok (.rdH 2) ∧
    decode (.transaction 0b1111100111100#13 9) = .ok (.wrH 7 9) ∧
    decode (.transaction 0b1111001000000#13 9) = .ok (.rdM 0) ∧
    decode (.transaction 0b1111001010100#13 9) = .ok (.rdM 5) ∧
    decode (.transaction 0b1111101111100#13 9) = .ok (.wrM 15 9) := by decide
theorem test_decode_reserved_offsets :
    decode (.transaction 0b1111000010000#13 9) = .ok (.rdRsvdLo 0x10) ∧
    decode (.transaction 0b1111100011100#13 9) = .ok (.wrRsvdLo 0x1C 9) ∧
    decode (.transaction 0b1111010000000#13 9) = .ok (.rdRsvdHi 0x80) ∧
    decode (.transaction 0b1111111111100#13 9) = .ok (.wrRsvdHi 0xFC 9) := by decide

-- Each reason of R92 to R94 and R63; V88, V89, V92, V94, V97, V98.
theorem test_decode_refuses :
    decode (.command 0x80000001#32) = .error .reservedBits ∧ decode (.command 0x00000040#32) = .error .reservedBits ∧
    decode (.command 0x00000004#32) = .error .reservedOperation ∧
    decode (.command 0x00000010#32) = .error .variantOutsideInit ∧
    decode (.command 0x00000031#32) = .error .reservedVariant ∧
    decode (.transaction 0x1E06#13 0) = .error .misaligned ∧
    decode (.transaction 0x0340#13 0) = .error .partialWord := by decide

/-! ## The opcode table's numbering -/

theorem test_decodeTableWord : decodeTableWord 32 0x11 = some .initSha224 ∧
    decodeTableWord 16 0x1F54 = some (.wrM 5 0) ∧ decodeTableWord 16 (0xCAFEBABE1F40) = some (.wrM 0 0xCAFEBABE) ∧
    decodeTableWord 16 0x1E06 = none ∧ decodeTableWord 32 0x21 = none := by decide +kernel
theorem test_withFetchWord_runs_a_command :
    (stateAfter 1 (State.reset.withFetchWord 32 0x00000011)).map (·.h) = some iv224 := by decide +kernel
theorem test_withFetchWord_runs_a_transaction :
    (stateAfter 1 (distinct.withFetchWord 16 0x1E3C)).map (·.response) = some (.data 17) := by decide +kernel

/-! ## Commands, one step each (95_test_vectors.md section 4) -/

-- V61
theorem test_nop_idle : (one { withStatus 0x02 with h := iv256 } 0x1F00 0x00000000).map (fun t => (t.h, t.status)) =
    some (iv256, statusOf 0x02) := by decide +kernel
-- V62
theorem test_nop_busy : (one busy0 0x1F00 0x00000000).map (fun t => (t.h, t.status)) =
    some (iv256, statusOf 0x09) := by decide +kernel
-- V63
theorem test_initSha256 : (one State.reset 0x1F00 0x00000001).map (fun t => (t.h[0], t.h[7], t.status)) =
    some (0x6A09E667#32, 0x5BE0CD19#32, statusOf 0x00) := by decide +kernel
-- V65
theorem test_initSha224 : (one State.reset 0x1F00 0x00000011).map (fun t => (t.h[0], t.h[7], t.status)) =
    some (0xC1059ED8#32, 0xBEFA4FA4#32, statusOf 0x00) := by decide +kernel
-- V70
theorem test_zeroize : (one { distinct with status := statusOf 0x06, ctrl := ⟨true, false⟩ } 0x1F00 0x00000003).map
    (fun t => (t.h, t.m, t.status, t.ctrl)) =
    some (Vector.replicate 8 0, Vector.replicate 16 0, statusOf 0x06, ⟨true, false⟩) := by decide +kernel
-- V72
theorem test_compress_accepted : (one { withStatus 0x02 with h := iv256 } 0x1F00 0x00000002).map (fun t => (t.h, t.status)) =
    some (iv256, statusOf 0x01) := by decide +kernel
-- V75
theorem test_compress_refused : (one busy0 0x1F00 0x00000002).map (·.status) = some (statusOf 0x09) := by decide +kernel
-- V73 (V53 gives the words)
theorem test_completion : (stateAfter 1 { busy0 with inputs := [.engine] }).map (fun t => (t.h, t.status)) =
    some (#v[0xDA5698BE#32, 0x17B9B469#32, 0x62335799#32, 0x779FBECA#32, 0x8CE5D491#32, 0xC0D26243#32, 0xBAFEF9EA#32,
      0x1837A9D8#32], statusOf 0x02) := by decide +kernel

/-! ## Transactions, one step each (section 5) -/

-- V82
theorem test_rdCmd : (one distinct 0x1E00 0).map (·.response) = some (.data 0) := by decide +kernel
-- V92 and V101
theorem test_wrCmd_illegal : (one State.reset 0x1F00 0x00000004).map (·.status) = some (statusOf 0x04) ∧
    (one busy0 0x1F00 0x00000021).map (·.status) = some (statusOf 0x09) := by decide +kernel
-- P4, row 7
theorem test_rdStatus : (one (withStatus 0x1E) 0x1E04 0).map (·.response) = some (.data 0x0000001E) := by decide +kernel
-- V104
theorem test_wrStatus_one_bit : (one (withStatus 0x1E) 0x1F04 0x00000008).map (·.status) = some (statusOf 0x16) := by
  decide +kernel
-- V105
theorem test_wrStatus_reserved_bits : (one (withStatus 0x16) 0x1F04 0xFFFFFFE0).map (·.status) = some (statusOf 0x16) := by
  decide +kernel
-- V108
theorem test_wrCtrl : (one State.reset 0x1F08 0xFFFFFFFD).map (·.ctrl) = some ⟨true, false⟩ := by decide +kernel
-- R39: {30'b0, ERR_IE, DONE_IE}
theorem test_rdCtrl : (one { State.reset with ctrl := ⟨false, true⟩ } 0x1E08 0).map (·.response) =
    some (.data 0x00000002) := by decide +kernel
-- V80
theorem test_rdInfo : (one State.reset 0x1E0C 0).map (·.response) = some (.data 0x01104020) := by decide +kernel
-- V81
theorem test_wrInfo : one distinct 0x1F0C 0xFFFFFFFF = some distinct.acked := by decide +kernel
-- V83
theorem test_rdRsvd : (one distinct 0x1E1C 0).map (·.response) = some (.data 0) ∧
    (one distinct 0x1EFC 0).map (·.response) = some (.data 0) := by decide +kernel
-- V84
theorem test_wrRsvd : one distinct 0x1F10 0x12345678 = some distinct.acked ∧
    one distinct 0x1F80 0x12345678 = some distinct.acked := by decide +kernel
-- R32: H[i] at 0x20 + 4·i
theorem test_rdH : (one distinct 0x1E2C 0).map (·.response) = some (.data 13) := by decide +kernel
-- V86
theorem test_wrH : (one distinct 0x1F3C 0x0BADF00D).map (·.h) =
    some #v[10, 11, 12, 13, 14, 15, 16, 0x0BADF00D#32] := by decide +kernel
-- R35: M[j] at 0x40 + 4·j, busy or not
theorem test_rdM : (one { distinct with status := statusOf 0x01 } 0x1E78 0).map (·.response) = some (.data 34) := by
  decide +kernel
-- V85; V100 for the refusal
theorem test_wrM : (one State.reset 0x1F40 0xCAFEBABE).map (·.m[0]) = some 0xCAFEBABE#32 ∧
    (one busy0 0x1F40 0x11111111).map (fun t => (t.m[0], t.status)) = some (0, statusOf 0x09) := by decide +kernel

/-! ## Errors, the interrupt, reset -/

-- V88, V89, V90, V91, V102
theorem test_access_errors : (one State.reset 0x0340 5).map (fun t => (t.m[0], t.status)) = some (0, statusOf 0x10) ∧
    (one distinct 0x1E06 0).map (fun t => (t.response, t.status)) = some (.data 0, statusOf 0x10) ∧
    (one State.reset 0x0700 2).map (·.status) = some (statusOf 0x10) ∧
    (one (withStatus 0x10) 0x0704 0x10).map (·.status) = some (statusOf 0x10) ∧
    (one busy0 0x0700 2).map (·.status) = some (statusOf 0x11) := by decide +kernel
-- V110, V111, V113, V114
theorem test_irq :
    (one { withStatus 0x02 with ctrl := ⟨true, false⟩ } 0x1F04 0x2).map (·.irq) = some false ∧
    (one { withStatus 0x02 with ctrl := ⟨true, false⟩ } 0x1F00 0x2).map (·.irq) = some false ∧
    (one { withStatus 0x04 with ctrl := ⟨false, true⟩ } 0x1F08 0x0).map (·.irq) = some false ∧
    (one { State.reset with ctrl := ⟨false, true⟩ } 0x1E3D 0).map (·.irq) = some true := by decide +kernel
-- V121, V123
theorem test_reset_loses_everything :
    (stateAfter 2 { busy0 with inputs := [.reset none, .engine] }).map (fun t => (t.h, t.status)) =
      some (Vector.replicate 8 0, statusOf 0) ∧
    (stateAfter 1 { distinct with inputs := [.reset (some ⟨0x1F4C, 0x5A5A5A5A⟩)] }).map (·.m) =
      some (Vector.replicate 16 0) := by decide +kernel

/-! ## The compression and the host's side (sections 2 and 3) -/

-- V4, V7, V14, V18, V24, V30, V37, V44
theorem test_word_functions : rotr 25 0x00000001 = 0x00000080#32 ∧ shr 3 0xFFFFFFFF = 0x1FFFFFFF#32 ∧
    ch 0x510E527F 0x9B05688C 0x1F83D9AB = 0x1F85C98C#32 ∧ maj 0x6A09E667 0xBB67AE85 0x3C6EF372 = 0x3A6FE667#32 ∧
    bigSigma0 0x12345678 = 0x66146474#32 ∧ bigSigma1 0x12345678 = 0x3561ABDA#32 ∧
    smallSigma0 0x12345678 = 0xE7FCE6EE#32 ∧ smallSigma1 0x12345678 = 0xA1F78649#32 := by decide +kernel
-- V52
theorem test_compress_all_ones : compress (Vector.replicate 8 0xFFFFFFFF) (Vector.replicate 16 0xFFFFFFFF) =
    #v[0x0598127A#32, 0xAF11706E#32, 0x77401FFF#32, 0xD730C549#32, 0x0B84C867#32, 0xA98C6CA3#32, 0xD7F3C0F9#32,
      0x06A78B79#32] := by decide +kernel
-- V151 (SHA-256 of "abc"), its leading words
theorem test_digest_abc : (messageDigest .sha256 [0x61, 0x62, 0x63]).take 8 =
    [0xBA#8, 0x78#8, 0x16#8, 0xBF#8, 0x8F#8, 0x01#8, 0xCF#8, 0xEA#8] := by decide +kernel
-- V152 (SHA-224 of the empty message), its last word: H[7] is left out
theorem test_digest_sha224_empty : (messageDigest .sha224 []).drop 24 = [0xC5#8, 0xB3#8, 0xE4#8, 0x2F#8] := by
  decide +kernel
-- R223's table: L = 55, 56, 63, 64
theorem test_padding_boundaries :
    [55, 56, 63, 64].map padZeros = [0, 63, 56, 55] ∧ [55, 56, 63, 64].map blockCount = [1, 2, 2, 2] := by decide
-- V160: 55 bytes "a"
theorem test_one_block_of_55 : messageBlocks (List.replicate 55 0x61) =
    [#v[0x61616161#32, 0x61616161#32, 0x61616161#32, 0x61616161#32, 0x61616161#32, 0x61616161#32, 0x61616161#32,
      0x61616161#32, 0x61616161#32, 0x61616161#32, 0x61616161#32, 0x61616161#32, 0x61616161#32, 0x61616180#32, 0,
      0x000001B8#32]] := by decide +kernel

/-! ## Witnesses: encoding and commands -/

theorem test_witness_DecodeInvertsEncode : (Instr.rdRsvdLo 0x10).wellFormed = true ∧ (Instr.wrRsvdLo 0x1C 1).wellFormed = true ∧
    (Instr.rdRsvdHi 0x80).wellFormed = true ∧ (Instr.wrRsvdHi 0xFC 1).wellFormed = true ∧ (Instr.wrM 15 1).wellFormed = true := by
  decide
theorem test_witness_EncodeRecoversTheDescriptor : decodeTransaction 0x1F54#13 7 = .ok (.wrM 5 7) ∧
    decodeTransaction 0x1E3C#13 7 = .ok (.rdH 7) := by decide
theorem test_witness_LegalCommandWordsAreTheFive : State.reset.status.busy = false ∧
    decodeCommand 0x00000021#32 = .error .reservedVariant := by decide
theorem test_witness_StepRunsTheDecodedInstruction :
    (({ State.reset with inputs := [.bus ⟨0x1F00#13, 3⟩, .engine] } : State).inputs =
      .bus (Transaction.ofEncoded (.command 3)) :: [.engine] ∧ decode (.command 3) = .ok .zeroize) ∧
    (({ State.reset with inputs := [.bus ⟨0x1F41#13, 3⟩] } : State).inputs =
      .bus (Transaction.ofEncoded (.transaction 0x1F41#13 3)) :: [] ∧
      decode (.transaction 0x1F41#13 3) = .error .misaligned) := by decide
/-- An idle and a busy state: the case splits of NopChangesNoRegister, InitSha256LoadsItsInitialHash,
InitSha224LoadsItsInitialHash, ZeroizeClearsHashAndBlock, HashWordReadWhileIdleOrBusy, HashWordWriteOrBusyRefusal,
BlockWordReadAndWrite and WorkedEncodingsDecode. -/
theorem test_witness_idle_and_busy : distinct.status.busy = false ∧ busy0.status.busy = true := by decide
theorem test_witness_CompressAcceptanceSetsBusy : distinct.status.busy = false ∧ busy0.status.busy = true ∧
    tdLegal 0x0700#13 = false ∧
    takeEvent (.bus ⟨0x0700#13, 0x00000002#32⟩) distinct = .next (distinct.raise .access true) := ⟨rfl, rfl, rfl, rfl⟩
theorem test_witness_CmdReadsZeroAndKeepsNothing : distinct.status.busy = false ∧ decodeCommand 3 = .ok .zeroize ∧
    exec (.wrCmd 0) distinct = .next distinct.acked := ⟨rfl, rfl, rfl⟩

/-! ## Witnesses: registers -/

theorem test_witness_CtrlReadWriteAndMeaning :
    let s : State := { withStatus 0x06 with ctrl := ⟨true, true⟩ }
    s.ctrl.doneIe = true ∧ s.status.done = true ∧ s.ctrl.errIe = true ∧
      (s.status.errIll || s.status.errBusy || s.status.errAcc) = true := by decide
theorem test_witness_ReservedOffsetsReadZeroIgnoreWrites :
    ([0x10#8, 0x1C#8, 0x80#8, 0xFC#8].all fun off => decide (off.toNat % 4 = 0 ∧
      ((0x10 ≤ off.toNat ∧ off.toNat ≤ 0x1C) ∨ 0x80 ≤ off.toNat))) = true := by decide
/-- LegalReadReturnsTheMappedRegister and LegalReadsChangeNoRegister, at the first and the last offset. -/
theorem test_witness_legal_reads :
    ([0x1E00#13, 0x1E20#13, 0x1E7C#13, 0x1EFC#13].all fun td => tdLegal td && !tdWe td) = true ∧
    distinct.status.busy = false ∧ busy0.status.busy = true := by decide
theorem test_witness_LegalWriteChangesOneOffset : ([0x1F04#13, 0x1F08#13, 0x1F3C#13, 0x1F40#13, 0x1FFC#13].all fun td =>
    tdLegal td && tdWe td && tdOff td != 0x00#8) = true ∧ distinct.status.busy = false := by decide
theorem test_witness_ReadAfterWriteSeesTheWrite : distinct.status.busy = false ∧
    exec (.wrH 7 5) distinct = .next (distinct.writeH 7 5).acked ∧
    exec (.wrM 15 5) distinct = .next (distinct.writeM 15 5).acked ∧
    exec (.wrCtrl 2) distinct = .next { distinct.acked with ctrl := ⟨false, true⟩ } := ⟨rfl, rfl, rfl, rfl⟩

/-! ## Witnesses: errors and the interrupt -/

theorem test_witness_IllegalAccessSetsErrAccOnly : (tdOff 0x1E3D#13).extractLsb' 0 2 ≠ 0b00#2 ∧ tdBe 0x0340#13 ≠ 0b1111#4 := by
  decide
/-- At the first and the last address of the window, and at the addresses on both sides of it (the lower one if there is one). -/
theorem test_witness_OnlyFourByteAccessesAreLegal :
    (Config.engineBase ≤ Config.engineBase ∧ Config.engineBase < Config.engineBase + 256 ∧ (3 : Nat) ≠ 4) ∧
    (Config.engineBase ≤ Config.engineBase + 255 ∧ Config.engineBase + 255 < Config.engineBase + 256 ∧ (5 : Nat) ≠ 4) ∧
    (Config.engineBase + 256 < Config.engineBase ∨ Config.engineBase + 256 ≤ Config.engineBase + 256) ∧
    (0 < Config.engineBase → Config.engineBase - 1 < Config.engineBase) := by omega
theorem test_witness_BusyWriteSetsErrBusyOnly : busy0.status.busy = true ∧
    ([0x1F00#13, 0x1F20#13, 0x1F7C#13].all fun td => tdLegal td && tdWe td && guardedOffset (tdOff td)) = true ∧
    ([0x1E20#13, 0x1F04#13, 0x1F08#13, 0x1F80#13].all fun td =>
      tdLegal td && (!tdWe td || !guardedOffset (tdOff td))) = true := by decide
theorem test_witness_IllegalCommandSetsErrIllOnly : State.reset.status.busy = false ∧
    (0x00000012#32 ∉ [0x00000000#32, 0x00000001#32, 0x00000011#32, 0x00000002#32, 0x00000003#32]) ∧
    takeEvent (.bus ⟨0x1F00#13, 0x00000012#32⟩) State.reset = .next (State.reset.raise .illegal true) ∧
    State.reset.status.errIll = false ∧ (State.reset.raise .illegal true).status.errIll = true :=
  ⟨rfl, by decide, rfl, rfl, rfl⟩
/-- One transaction for each case of FirstErrorCheckDecides, the last two of the same descriptor. -/
theorem test_witness_FirstErrorCheckDecides : tdLegal 0x1F41#13 = false ∧
    (tdLegal 0x1F40#13 = true ∧ busy0.status.busy = true ∧ guardedOffset (tdOff 0x1F40#13) = true) ∧
    (tdLegal 0x1F00#13 = true ∧ State.reset.status.busy = false ∧ (decodeCommand 4).isOk = false ∧
      (decodeCommand 3).isOk = true) := by decide
/-- One step for each way a STATUS bit is set, and one that clears (StatusBitsAfterAStep, ErrorBitsBlockNothing,
OnlyNamedWritersChangeHashAndBlock: the premise is a step that answers next). -/
theorem test_witness_steps :
    ((one distinct 0x1F00 2).map (·.status) = some (statusOf 0x01)) ∧
    ((stateAfter 1 { busy0 with inputs := [.engine] }).map (·.status) = some (statusOf 0x02)) ∧
    ((one distinct 0x1F00 4).map (·.status) = some (statusOf 0x04)) ∧
    ((one busy0 0x1F20 4).map (·.status) = some (statusOf 0x09)) ∧
    ((one distinct 0x0340 4).map (·.status) = some (statusOf 0x10)) ∧
    ((stateAfter 1 { distinct with inputs := [.wide true] }).map (·.status) = some (statusOf 0x10)) ∧
    ((one (withStatus 0x1E) 0x1F04 0x1E).map (·.status) = some (statusOf 0x00)) := by decide +kernel
theorem test_witness_ErrorBitsBlockNothing :
    step { distinct with inputs := [.bus ⟨0x1F20#13, 5⟩] } = .next (distinct.writeH 0 5).acked ∧
    step { distinct with inputs := [.bus ⟨0x1F20#13, 5⟩], status := statusOf 0x1C } =
      .next { (distinct.writeH 0 5).acked with status := statusOf 0x1C } := ⟨rfl, rfl⟩
-- a rise by completion, by an error and by a CTRL write; a fall by each of the four
theorem test_witness_IrqLevelRisesAndFalls :
    ((stateAfter 1 { busy0 with ctrl := ⟨true, false⟩, inputs := [.engine] }).map (·.irq) = some true) ∧
    ((one { distinct with ctrl := ⟨false, true⟩ } 0x1F41 0).map (·.irq) = some true) ∧
    ((one (withStatus 0x04) 0x1F08 2).map (·.irq) = some true) ∧
    ((one { withStatus 0x02 with ctrl := ⟨true, false⟩ } 0x1F04 2).map (·.irq) = some false) ∧
    ((one { withStatus 0x02 with ctrl := ⟨true, false⟩ } 0x1F08 0).map (·.irq) = some false) ∧
    ((one { withStatus 0x02 with ctrl := ⟨true, false⟩ } 0x1F00 2).map (·.irq) = some false) ∧
    ((stateAfter 1 { withStatus 0x02 with ctrl := ⟨true, false⟩, inputs := [.reset none] }).map (·.irq) = some false) := by
  decide +kernel
theorem test_witness_SetWinsOverClearInTheSameCycle : busy0.status.busy = true := by decide
theorem test_witness_RotationAndShiftBitwise : (1 ≤ 1 ∧ 1 ≤ 31) ∧ (1 ≤ 31 ∧ 31 ≤ 31) := by decide

/-! ## Witnesses: compression, reset, the whole machine -/

theorem test_witness_CompletionStepOfTheEngine :
    ({ busy0 with inputs := [.engine] } : State).inputs = .engine :: [] ∧ busy0.status.busy = true ∧
    ({ distinct with inputs := [.engine] } : State).inputs = .engine :: [] ∧ distinct.status.busy = false := by decide
/-- CompressionSurvivesHostInterference and CompressionCompletesWhenInputsRunOut: a refused write, an ERR_ACC write and a read
before the completion. -/
theorem test_witness_host_events_while_busy :
    let host : List Event := [.bus ⟨0x1F40#13, 1⟩, .wide true, .bus ⟨0x1E40#13, 0⟩]
    (∀ e ∈ host, e.fromHost = true) ∧ busy0.status.busy = true ∧
      ({ busy0 with inputs := host ++ [.engine] } : State).inputs = host ++ .engine :: [] ∧
      ({ busy0 with inputs := host } : State).inputs = host := by decide
theorem test_witness_PollingSeesBusyThenTheResult : ∀ polls ∈ [0, 2], busy0.status.busy = true ∧
    ({ busy0 with inputs := List.replicate polls readStatus ++ [.engine, readStatus] } : State).inputs =
      List.replicate polls readStatus ++ .engine :: readStatus :: [] := fun _ _ => ⟨rfl, rfl⟩
/-- ResetGivesEveryResetValue and TransactionInProgressAtResetIsLost, with no transaction, a write and a read in progress. -/
theorem test_witness_reset_events :
    ({ busy0 with inputs := [.reset none] } : State).inputs = .reset none :: [] ∧
    (({ busy0 with inputs := [.reset (some ⟨0x1F4C#13, 5⟩)] } : State).inputs = .reset (some ⟨0x1F4C#13, 5⟩) :: [] ∧
      tdWe 0x1F4C#13 = true) ∧
    (({ busy0 with inputs := [.reset (some ⟨0x1E20#13, 5⟩)] } : State).inputs = .reset (some ⟨0x1E20#13, 5⟩) :: [] ∧
      tdWe 0x1E20#13 = false) := by decide
theorem test_witness_OnlyResetAbortsACompression : busy0.status.busy = true ∧
    takeEvent (.reset none) busy0 = .next busy0.resetEngine ∧ busy0.resetEngine.status.busy = false ∧
    takeEvent .engine busy0 = .next busy0.engineTurn ∧ busy0.engineTurn.status.busy = false := ⟨rfl, rfl, rfl, rfl, rfl⟩
theorem test_witness_StepKeepsBusyAndDoneApart : State.Inv { withStatus 0x02 with inputs := [.bus ⟨0x1F00#13, 2⟩] } ∧
    step { withStatus 0x02 with inputs := [.bus ⟨0x1F00#13, 2⟩] } = .next (withStatus 0x01).acked := ⟨by decide, rfl⟩
/-- A step that changes H and one that changes M, for each of the ways OnlyNamedWritersChangeHashAndBlock names. -/
theorem test_witness_OnlyNamedWritersChangeHashAndBlock :
    ([Event.bus ⟨0x1F20#13, 5⟩, .bus ⟨0x1F00#13, 1⟩, .bus ⟨0x1F00#13, 0x11⟩, .bus ⟨0x1F00#13, 3⟩, .reset none].all fun e =>
      (stateAfter 1 { distinct with inputs := [e] }).map (fun t => decide (t.h ≠ distinct.h)) == some true) = true ∧
    ([Event.bus ⟨0x1F40#13, 5⟩, .bus ⟨0x1F00#13, 3⟩, .reset none].all fun e =>
      (stateAfter 1 { distinct with inputs := [e] }).map (fun t => decide (t.m ≠ distinct.m)) == some true) = true ∧
    (stateAfter 1 { busy0 with inputs := [.engine] }).map (fun t => decide (t.h ≠ busy0.h)) = some true := by decide +kernel
theorem test_witness_HazardFreeTransactionRaisesNothing : hazardFree ⟨0x1F00#13, 2⟩ distinct = true ∧
    hazardFree ⟨0x1F20#13, 2⟩ distinct = true ∧ hazardFree ⟨0x1E20#13, 0⟩ distinct = true ∧
    hazardFree ⟨0x1E04#13, 0⟩ busy0 = true ∧ hazardFree ⟨0x1E40#13, 0⟩ busy0 = true ∧
    hazardFree ⟨0x1E20#13, 0⟩ busy0 = false := by decide

/-! ## Witnesses: the host's obligations -/

theorem test_witness_HostProcedureComputesTheDigest :
    ({ State.reset with inputs := hashEvents .sha224 [0x61] [3] ++ [.engine] } : State).inputs =
      hashEvents .sha224 [0x61] [3] ++ [.engine] ∧
    State.reset.status.busy = false ∧ lengthFits [0x61] = true ∧ [3].length = blockCount [0x61#8].length :=
  ⟨rfl, rfl, by decide, rfl⟩
theorem test_witness_PaddingFillsWholeBlocks : (0 + 1 + 55 + 8) % 64 = 0 ∧ (0 + 1 + 119 + 8) % 64 = 0 := by decide
/-- The bounds of BytesAreBigEndianInWords, SigmaFunctionsBitwise and CompressObeysTheRecurrences, at their ends. -/
theorem test_witness_index_bounds : 0 < blockCount 0 ∧ (3 : Nat) < 4 ∧ (31 : Nat) < 32 ∧ (16 ≤ 16 ∧ 63 < 64) := by decide
/-- A run of the procedure's script from the reset state that returns a digest, for HashScriptReturnsTheDigest and the first clause
of PiecewiseHashingGivesTheSameDigest. -/
theorem test_witness_HashScriptReturnsTheDigest : State.reset.status.busy = false ∧ 8 * [0x61#8].length < 2 ^ 64 ∧
    ∃ script turns q t d, hashScript .sha224 [0x61] = .ok script ∧
      runScript turns (.start script) State.reset = some (q, t) ∧ q.returned .sha224 = some d := by
  have h := OnProcedure.begin .sha224 (byteBlocks 1 (pad [0x61])) (s := State.reset) rfl
  obtain ⟨turns, q, t, d, hr, hd⟩ := h.1.ends _ rfl h.2 (Nat.le_add_left _ _)
  exact ⟨rfl, by decide, _, turns, q, t, d, hashScript_ok .sha224 rfl, hr, hd⟩
/-- The first clause, an update that fills a block, and a context one byte short of one. -/
theorem test_witness_PiecewiseHashingGivesTheSameDigest :
    lengthFits [[0x61#8], [], [0x62#8, 0x63#8]].flatten = true ∧
    (∃ script, updateContext ⟨.sha256, List.replicate 63 0, 127, false⟩ [0x61, 0x62] =
      .ok (script, ⟨.sha256, [0x62], 129, false⟩) ∧ .label 1 ∈ script) ∧
    (let c : HashContext := ⟨.sha256, List.replicate 63 0, 63, false⟩
     c.finalized = false ∧ c.buffer.length < 64 ∧ 8 * c.total < 2 ^ 64) := ⟨rfl, ⟨_, rfl, by decide⟩, by decide⟩
theorem test_witness_ScriptsPresentTheProcedure :
    let p : ScriptHost := ⟨(Pseudo.wait 0).expand, 1, []⟩
    p.script[p.position]? = some (.rd .status) ∧ p.script[p.position + 1]? = some (.bnz .status 0 0) := by decide
theorem test_witness_UsageErrorsGiveNoDigest :
    2 ^ 64 ≤ 8 * ((⟨.sha256, [], 2 ^ 61, false⟩ : HashContext).total + ([] : List Byte).length) ∧
    ("SHA512" : String) ≠ "SHA256" ∧ ("SHA512" : String) ≠ "SHA224" := by decide
/-- A message that is too long: any of at least 2^61 bytes (UsageErrorsGiveNoDigest, HashScriptReturnsTheDigest). -/
theorem test_witness_long_message (n : Nat) (h : 2 ^ 61 ≤ n) : 2 ^ 64 ≤ 8 * (List.replicate n (0 : Byte)).length := by
  rw [List.length_replicate]; omega
theorem test_witness_finalized_or_not : (⟨.sha256, [], 0, false⟩ : HashContext).finalized = false ∧
    (⟨.sha256, [], 0, true⟩ : HashContext).finalized = true := by decide

end Sys2Proof.Tests
end

section
/-! PROOFS. The registers of 10_state.md one by one (R32, R33, R35, R37, R39, R40) and their reset (R47). -/

namespace Sys2Proof.Machine

open Sys2Proof.Laws

/-! ## The data registers -/

/-- A refused write, field by field (60_exceptions.md R252). -/
theorem State.raise_busy_write (s : State) : s.raise .busy true =
    { s with status := { s.status with errBusy := true }, response := .ack } := rfl

/-- Settles O13, from the model's `exec_rdH`: idle, the read returns H[i]; busy, it returns a draw. -/
theorem hashWordReadWhileIdleOrBusy : Obligations.HashWordReadWhileIdleOrBusy := by
  intro i s
  rw [exec_rdH]
  constructor
  · intro hidle
    simp [hidle, State.returns]
  · intro hbusy
    exact ⟨Config.draw s.draws, s.draws + 1, by simp [hbusy, State.returnsDraw, State.returns]⟩

/-- Settles O14, from the model's `exec_wrH`. -/
theorem hashWordWriteOrBusyRefusal : Obligations.HashWordWriteOrBusyRefusal := by
  intro i v s
  rw [exec_wrH]
  constructor
  · intro hidle
    simp [hidle, State.acked]
  · intro hbusy
    simp [hbusy, State.raise_busy_write]

/-- Settles O15, from the model's `exec_rdM` and `exec_wrM`. -/
theorem blockWordReadAndWrite : Obligations.BlockWordReadAndWrite := by
  intro j v s
  refine ⟨exec_rdM j s, ?_, ?_⟩ <;> rw [exec_wrM]
  · intro hidle
    simp [hidle, State.acked]
  · intro hbusy
    simp [hbusy, State.raise_busy_write]

/-! ## CMD, CTRL and INFO -/

/-- Settles O16: a read of CMD is the same read in every state, so after a write too; a legal word runs its command by
`exec_wrCmd_of_ok`. -/
theorem cmdReadsZeroAndKeepsNothing : Obligations.CmdReadsZeroAndKeepsNothing := by
  intro v s
  exact ⟨exec_rdCmd s, fun _ _ hc => exec_wrCmd_of_ok hc s, fun t _ => exec_rdCmd t⟩

/-- Settles O18, with the bits of the CTRL word from `Ctrl.getLsbD_word`. -/
theorem ctrlReadWriteAndMeaning : Obligations.CtrlReadWriteAndMeaning := by
  refine ⟨rfl, fun v s => ⟨exec_wrCtrl v s, ⟨s.ctrl.word, exec_rdCtrl s, ?_, ?_, ?_⟩, ?_, ?_⟩⟩
  · exact Ctrl.getLsbD_word s.ctrl 0
  · exact Ctrl.getLsbD_word s.ctrl 1
  · rintro (_ | _ | k) hk
    · omega
    · omega
    · exact Ctrl.getLsbD_word s.ctrl (k + 2)
  · intro hie hdone
    simp [State.irq, hie, hdone]
  · intro hie herr
    have hany : s.status.anyError = true := herr
    simp [State.irq, hie, hany]

/-- Settles O19: INFO's accesses are those of the model in every state; its fields are compared as numbers. -/
theorem infoIsConstant : Obligations.InfoIsConstant :=
  ⟨fun v s => ⟨exec_rdInfo s, exec_wrInfo v s⟩, by decide, by decide, by decide, by decide⟩

/-! ## Reset -/

/-- IRQ is low where no STATUS bit is set, whatever CTRL enables. -/
theorem State.irq_of_status_clear {s : State} (h : s.status = ⟨false, false, false, false, false⟩) : s.irq = false := by
  simp [State.irq, Status.anyError, h]

/-- The zeros that H holds after reset are no variant's initial hash value. -/
theorem zeros_ne_initialHash (x : Variant) : Vector.replicate 8 0 ≠ initialHash x := by
  cases x <;> decide

/-- A step whose next event is a reset. -/
theorem step_reset {s : State} {d : Option Transaction} {rest : List Event} (h : s.inputs = .reset d :: rest) :
    step s = .next ({ s with inputs := rest }.resetDuring d) := step_cons h

/-- Settles O44: the fields after a reset are those of the `resetDuring` lemmas, whatever transaction was in progress. -/
theorem resetGivesEveryResetValue : Obligations.ResetGivesEveryResetValue := by
  refine ⟨rfl, rfl, rfl, rfl, rfl, fun s d rest h => ⟨_, step_reset h, ?_⟩⟩
  simp only [State.resetDuring_inputs, State.resetDuring_h, State.resetDuring_m, State.resetDuring_status,
    State.resetDuring_ctrl, true_and]
  exact ⟨State.irq_of_status_clear (State.resetDuring_status _ d), rfl, zeros_ne_initialHash .sha256,
    zeros_ne_initialHash .sha224⟩

end Sys2Proof.Machine
end

section
/-! PROOFS. What every step does to each STATUS bit (10_state.md R38): the causes as predicates of STATUS and the event, the rule they
make (`StatusRule`), and that every `Effect` follows it. -/

namespace Sys2Proof.Machine

open Sys2Proof.Laws

/-! ## The causes that set or clear a bit -/

/-- A write of COMPRESS to CMD while idle, which the engine accepts (41_compression.md R170). -/
def Accepts (σ : Status) (e : Event) : Prop := σ.busy = false ∧ e = .bus ⟨0x1F00#13, 0x00000002#32⟩

/-- A write to STATUS with a 1 in bit k. -/
def ClearsBit (e : Event) (k : Nat) : Prop := ∃ v : Word, e = .bus ⟨0x1F04#13, v⟩ ∧ v.getLsbD k = true

/-- A reset. -/
def IsReset (e : Event) : Prop := ∃ d, e = .reset d

/-- A write to CMD, while idle, of a word that is no command (60_exceptions.md R251). -/
def IllegalCommand (σ : Status) (e : Event) : Prop :=
  σ.busy = false ∧ ∃ v, e = .bus ⟨0x1F00#13, v⟩ ∧ (decodeCommand v).isOk = false

/-- A legal write to CMD, H or M while busy (60_exceptions.md R252). -/
def RefusedWrite (σ : Status) (e : Event) : Prop :=
  σ.busy = true ∧ ∃ td v, e = .bus ⟨td, v⟩ ∧ tdLegal td = true ∧ tdWe td = true ∧ guardedOffset (tdOff td) = true

/-- An access that R63 does not allow (60_exceptions.md R253). -/
def AccessError (e : Event) : Prop := (∃ td v, e = .bus ⟨td, v⟩ ∧ tdLegal td = false) ∨ ∃ w, e = .wide w

/-- The "set by" and "cleared by" columns of R38, for STATUS σ before an event and τ after it. -/
structure StatusRule (σ : Status) (e : Event) (τ : Status) : Prop where
  busy : τ.busy = true ↔ Accepts σ e ∨ (σ.busy = true ∧ e ≠ .engine ∧ ¬ IsReset e)
  done : τ.done = true ↔
    (σ.busy = true ∧ e = .engine) ∨ (σ.done = true ∧ ¬ ClearsBit e 1 ∧ ¬ Accepts σ e ∧ ¬ IsReset e)
  errIll : τ.errIll = true ↔ IllegalCommand σ e ∨ (σ.errIll = true ∧ ¬ ClearsBit e 2 ∧ ¬ IsReset e)
  errBusy : τ.errBusy = true ↔ RefusedWrite σ e ∨ (σ.errBusy = true ∧ ¬ ClearsBit e 3 ∧ ¬ IsReset e)
  errAcc : τ.errAcc = true ↔ AccessError e ∨ (σ.errAcc = true ∧ ¬ ClearsBit e 4 ∧ ¬ IsReset e)

/-! ## Which causes a bus transaction is -/

section Bus
variable (σ : Status) (td : Td) (v : Word)

@[simp] theorem accepts_bus : Accepts σ (.bus ⟨td, v⟩) ↔
    σ.busy = false ∧ td = writeTd 0x00#8 ∧ v = encodeCommand .compress := by
  simp [Accepts, writeTd, makeTd, encodeCommand]

@[simp] theorem clearsBit_bus (k : Nat) : ClearsBit (.bus ⟨td, v⟩) k ↔ td = writeTd 0x04#8 ∧ v.getLsbD k = true := by
  simp [ClearsBit, writeTd, makeTd]

@[simp] theorem isReset_bus (t : Transaction) : ¬ IsReset (.bus t) := by simp [IsReset]

@[simp] theorem illegalCommand_bus : IllegalCommand σ (.bus ⟨td, v⟩) ↔
    σ.busy = false ∧ td = writeTd 0x00#8 ∧ (decodeCommand v).isOk = false := by
  simp [IllegalCommand, writeTd, makeTd]

@[simp] theorem refusedWrite_bus : RefusedWrite σ (.bus ⟨td, v⟩) ↔
    σ.busy = true ∧ tdLegal td = true ∧ tdWe td = true ∧ guardedOffset (tdOff td) = true := by
  simp [RefusedWrite]

@[simp] theorem accessError_bus : AccessError (.bus ⟨td, v⟩) ↔ tdLegal td = false := by simp [AccessError]

end Bus

/-- The causes that are transactions are none of any other event. -/
theorem no_transaction_cause {e : Event} (σ : Status) (h : ∀ t, e ≠ .bus t) :
    ¬ Accepts σ e ∧ (∀ k, ¬ ClearsBit e k) ∧ ¬ IllegalCommand σ e ∧ ¬ RefusedWrite σ e := by
  simp [Accepts, ClearsBit, IllegalCommand, RefusedWrite, h]

/-! ## Transactions that leave STATUS as it is -/

/-- A legal transaction that is not refused, no write to STATUS and, where it is a write to CMD, no error and no COMPRESS. -/
theorem statusRule_unchanged {σ : Status} {td : Td} {v : Word} (hlegal : tdLegal td = true)
    (hrefused : ¬ (σ.busy = true ∧ tdWe td = true ∧ guardedOffset (tdOff td) = true))
    (hstatus : td ≠ writeTd 0x04#8)
    (hcmd : td = writeTd 0x00#8 → (decodeCommand v).isOk = true ∧ v ≠ encodeCommand .compress) :
    StatusRule σ (.bus ⟨td, v⟩) σ := by
  have hok : ¬ (td = writeTd 0x00#8 ∧ (decodeCommand v).isOk = false) := by
    rintro ⟨h, hv⟩
    simp [(hcmd h).1] at hv
  have hacc : ¬ (td = writeTd 0x00#8 ∧ v = encodeCommand .compress) := fun ⟨h, hv⟩ => (hcmd h).2 hv
  constructor <;> simp [hlegal, hstatus, hok, hacc, hrefused]

theorem statusRule_command {σ : Status} {c : Command} (hidle : σ.busy = false) (hc : c ≠ .compress) :
    StatusRule σ (.bus ⟨writeTd 0x00#8, encodeCommand c⟩) σ := by
  refine statusRule_unchanged (by decide) (by simp [hidle]) (by simp [writeTd_inj]) fun _ => ⟨?_, ?_⟩
  · rw [decodeCommand_encodeCommand]; rfl
  · simpa [encodeCommand_inj] using hc

theorem statusRule_write {σ : Status} {off : Offset} {v : Word} (hlegal : tdLegal (writeTd off) = true)
    (hrefused : ¬ (σ.busy = true ∧ guardedOffset off = true)) (h0 : off ≠ 0x00#8) (h4 : off ≠ 0x04#8) :
    StatusRule σ (.bus ⟨writeTd off, v⟩) σ :=
  statusRule_unchanged hlegal (by simpa using hrefused) (by simpa [writeTd_inj] using h4) (by simp [writeTd_inj, h0])

theorem statusRule_read {σ : Status} {td : Td} {v : Word} (hlegal : tdLegal td = true) (hread : tdWe td = false) :
    StatusRule σ (.bus ⟨td, v⟩) σ :=
  statusRule_unchanged hlegal (by simp [hread]) (ne_writeTd_of_read hread _) fun h => absurd h (ne_writeTd_of_read hread _)

/-- No H and no M register has the offset of CMD or of STATUS (20_memory.md R62). -/
theorem data_offsets_ne_system : (∀ i : Fin 8, offsetOfH i ≠ 0x00#8 ∧ offsetOfH i ≠ 0x04#8) ∧
    (∀ j : Fin 16, offsetOfM j ≠ 0x00#8 ∧ offsetOfM j ≠ 0x04#8) := by decide

/-! ## Every event follows the columns -/

/-- R38's columns, over every effect an event can have. -/
theorem Effect.statusRule {s t : State} {e : Event} (h : Effect s e t) : StatusRule s.status e t.status := by
  cases h with
  | engine =>
    have hnone := no_transaction_cause s.status (e := .engine) (by simp)
    cases hb : s.status.busy <;> constructor <;> simp [hb, hnone, IsReset, AccessError, Status.completed]
  | reset d =>
    have hnone := no_transaction_cause s.status (e := .reset d) (by simp)
    constructor <;> simp [hnone, IsReset, AccessError]
  | wide w =>
    have hnone := no_transaction_cause s.status (e := .wide w) (by simp)
    constructor <;> simp [hnone, IsReset, AccessError, Status.withError]
  | access td v hl =>
    have hne : ∀ off, tdLegal (writeTd off) = true → td ≠ writeTd off := by
      rintro off hoff rfl
      simp [hl] at hoff
    have h0 : td ≠ writeTd 0x00#8 := hne _ (by decide)
    have h4 : td ≠ writeTd 0x04#8 := hne _ (by decide)
    constructor <;> simp [hl, h0, h4, Status.withError]
  | refusedWrite td v hb hl hw hg =>
    have h4 : td ≠ writeTd 0x04#8 := by
      rintro rfl
      simp [system_offsets] at hg
    constructor <;> simp [hb, hl, hw, hg, h4, Status.withError]
  | illegal v hb hv =>
    have hv' : v ≠ encodeCommand .compress := by
      rintro rfl
      simp [decodeCommand_encodeCommand, Except.isOk, Except.toBool] at hv
    constructor <;> simp [hb, hv, hv', system_offsets, writeTd_inj, Status.withError]
  | compress hb =>
    have hok : (decodeCommand (encodeCommand .compress)).isOk = true := rfl
    constructor <;> simp [hb, hok, system_offsets, writeTd_inj, Status.accepted]
  | wrStatus v => constructor <;> simp [system_offsets, writeTd_inj, Status.clear]
  | nop hb => exact statusRule_command hb (by simp)
  | init x hb => exact statusRule_command hb (by simp)
  | zeroize hb => exact statusRule_command hb (by simp)
  | wrCtrl v => exact statusRule_write (by decide) (by simp [system_offsets]) (by decide) (by decide)
  | wrH i v hb =>
    obtain ⟨h0, h4⟩ := data_offsets_ne_system.1 i
    exact statusRule_write (guarded_offsets.1 i).2.1 (by simp [hb]) h0 h4
  | wrM j v hb =>
    obtain ⟨h0, h4⟩ := data_offsets_ne_system.2 j
    exact statusRule_write (guarded_offsets.2 j).2.1 (by simp [hb]) h0 h4
  | ignored off v hl hg h4 =>
    have h0 : off ≠ 0x00#8 := by
      rintro rfl
      simp [system_offsets] at hg
    exact statusRule_write hl (by simp [hg]) h0 h4
  | read td v hl hw => exact statusRule_read hl hw
  | draw i v hb => exact statusRule_read (guarded_offsets.1 i).2.2 (tdWe_readTd _)

/-! ## The accesses to STATUS -/

/-- What a read of STATUS returns, bit by bit. -/
theorem rdStatus_returns_each_bit (s : State) : ∃ w : Word, exec .rdStatus s = .next { s with response := .data w } ∧
    w.getLsbD 0 = s.status.busy ∧ w.getLsbD 1 = s.status.done ∧ w.getLsbD 2 = s.status.errIll ∧
    w.getLsbD 3 = s.status.errBusy ∧ w.getLsbD 4 = s.status.errAcc ∧ ∀ k, 5 ≤ k → w.getLsbD k = false := by
  have hbit := Status.getLsbD_word s.status
  refine ⟨s.status.word, exec_rdStatus s, hbit 0, hbit 1, hbit 2, hbit 3, hbit 4, fun k hk => ?_⟩
  obtain ⟨n, rfl⟩ := Nat.exists_eq_add_of_le' hk
  exact hbit (n + 5)

/-- Settles O30: a step has one of the effects that `Effect` lists, and each follows R38's columns. -/
theorem statusBitsAfterAStep : Obligations.StatusBitsAfterAStep := by
  refine ⟨fun s t h => ?_, fun v s => ⟨rdStatus_returns_each_bit s, exec_wrStatus v s⟩⟩
  obtain ⟨hbusy, hdone, hill, hbus, hacc⟩ := (effect_of_step h).statusRule
  exact ⟨hbusy, hdone, hill, hbus, hacc⟩

end Sys2Proof.Machine
end

section
/-! PROOFS. The register window of 20_memory.md: the accesses that R63 does not allow (R64) and the reserved offsets (R65). -/

namespace Sys2Proof.Machine

open Sys2Proof.Laws

/-! ## Access errors -/

/-- The accesses that R63 does not allow, by the field that is wrong. -/
theorem tdLegal_eq_false_iff (td : Td) :
    tdLegal td = false ↔ (tdOff td).extractLsb' 0 2 ≠ 0b00#2 ∨ tdBe td ≠ 0b1111#4 := by
  rw [tdLegal, Bool.and_eq_false_iff, beq_eq_false_iff_ne, beq_eq_false_iff_ne, or_comm]

/-- An access error, field by field (60_exceptions.md R253). -/
theorem State.raise_access (s : State) (write : Bool) : s.raise .access write =
    { s with status := { s.status with errAcc := true }, response := if write then .ack else .data 0 } := rfl

/-- An access wider than 32 bits is an access error at every offset (20_memory.md R64). -/
theorem takeEvent_wide (write : Bool) (s : State) : takeEvent (.wide write) s = .next (s.raise .access write) := rfl

/-- Settles O25: no row of the decode table takes a transaction that R63 does not allow (`takeEvent_illegal`), and a wide access has
no row at all. -/
theorem illegalAccessSetsErrAccOnly : Obligations.IllegalAccessSetsErrAccOnly := by
  intro s
  constructor
  · intro td v hwrong
    have hillegal : tdLegal td = false := (tdLegal_eq_false_iff td).mpr hwrong
    rw [takeEvent_illegal hillegal, State.raise_access]
  · intro write
    rw [takeEvent_wide, State.raise_access]

/-! ## The reserved offsets -/

/-- The offsets of the low reserved rows, as numbers: the pattern of R97 is the range of R65. -/
theorem reservedLo_iff : ∀ off : Offset,
    Offset.reservedLo off = true ↔ off.toNat % 4 = 0 ∧ 0x10 ≤ off.toNat ∧ off.toNat ≤ 0x1C := by
  decide

/-- The offsets of the high reserved rows, as numbers: the pattern of R97 is the range of R65. -/
theorem reservedHi_iff : ∀ off : Offset, Offset.reservedHi off = true ↔ off.toNat % 4 = 0 ∧ 0x80 ≤ off.toNat := by
  decide

/-- Settles O20: an aligned offset in either range meets the pattern of its rows, which decode to the reserved accesses. -/
theorem reservedOffsetsReadZeroIgnoreWrites : Obligations.ReservedOffsetsReadZeroIgnoreWrites := by
  intro off v s haligned
  constructor
  · intro hmin hmax
    have hlo : Offset.reservedLo off = true := (reservedLo_iff off).mpr ⟨haligned, hmin, hmax⟩
    exact ⟨decode_rdRsvdLo hlo v, decode_wrRsvdLo hlo v, exec_rdRsvdLo off s, exec_wrRsvdLo off v s⟩
  · intro hmin
    have hhi : Offset.reservedHi off = true := (reservedHi_iff off).mpr ⟨haligned, hmin⟩
    exact ⟨decode_rdRsvdHi hhi v, decode_wrRsvdHi hhi v, exec_rdRsvdHi off s, exec_wrRsvdHi off v s⟩

end Sys2Proof.Machine
end

section
/-! PROOFS. The encodings of 30_encoding.md: the worked ones (R98), the legal command words (R94) and what a write of any word to
CMD does (R102). -/

namespace Sys2Proof.Machine

open Sys2Proof.Laws

/-! ## Which command words decode -/

/-- The five words of R95 are those that decode to a command. -/
theorem decodeCommand_eq_ok_iff_mem (v : Word) : (∃ c, decodeCommand v = .ok c) ↔
    v ∈ [0x00000000#32, 0x00000001#32, 0x00000011#32, 0x00000002#32, 0x00000003#32] := by
  rw [← decodeCommand_isOk_iff]
  cases decodeCommand v <;> simp [Except.isOk, Except.toBool]

/-- A word that is refused is none of the five. -/
theorem ne_legal_words_of_decodeCommand_error {v : Word} {e : DecodeError} (h : decodeCommand v = .error e) :
    v ≠ 0x00000000#32 ∧ v ≠ 0x00000001#32 ∧ v ≠ 0x00000011#32 ∧ v ≠ 0x00000002#32 ∧ v ≠ 0x00000003#32 := by
  have hnot := (decodeCommand_eq_ok_iff_mem v).not.mp (by simp [h])
  simpa using hnot

/-- The decoder refuses a word by the four conditions of R94, on the fields as numbers. -/
theorem decodeCommand_eq_error_iff (v : Word) : (∃ e, decodeCommand v = .error e) ↔
    commandRsv v ≠ 0 ∨ 4 ≤ commandOp v ∨ (commandOp v ≠ 1 ∧ commandVar v ≠ 0) ∨ (commandOp v = 1 ∧ 2 ≤ commandVar v) := by
  unfold decodeCommand
  split_ifs with hrsv hinit hop hvar
  · simp [hrsv]
  · split
    case h_1 h0 => simp [hrsv, hinit, h0]
    case h_2 h1 => simp [hrsv, hinit, h1]
    case h_3 h0 h1 =>
      have hvar : 2 ≤ commandVar v := (Nat.two_le_iff _).mpr ⟨h0, h1⟩
      simp [hinit, hvar]
  · simp [hop]
  · simp [hinit, hvar]
  · split <;> simp [hrsv, hinit, hop, hvar]

/-! ## A write of a word to CMD -/

/-- A refused command word, field by field (60_exceptions.md R251). -/
theorem State.raise_illegal_write (s : State) : s.raise .illegal true =
    { s with status := { s.status with errIll := true }, response := .ack } := rfl

theorem exec_wrCmd_busy {s : State} (hbusy : s.status.busy = true) (v : Word) :
    exec (.wrCmd v) s = .next (s.raise .busy true) := by
  show execWrCmd v s = _
  rw [execWrCmd, if_pos hbusy]

theorem exec_wrCmd_illegal_idle {s : State} (hidle : s.status.busy = false) {v : Word} {e : DecodeError}
    (h : decodeCommand v = .error e) : exec (.wrCmd v) s = .next (s.raise .illegal true) := by
  simp [exec_wrCmd_of_error h, hidle]

/-- Settles O12: busy, every word is refused; idle, a word that decodes is the word of its command, one test of the chain for each
command, and a word that does not decode fails all five tests. -/
theorem cmdWriteFollowsTheTestChain : Obligations.CmdWriteFollowsTheTestChain := by
  intro v s
  cases hs : s.status.busy with
  | true => rw [exec_wrCmd_busy hs, State.raise_busy_write]; rfl
  | false =>
    cases hd : decodeCommand v with
    | error e =>
      obtain ⟨hnop, h256, h224, hcompress, hzeroize⟩ := ne_legal_words_of_decodeCommand_error hd
      simp [exec_wrCmd_illegal_idle hs hd, State.raise_illegal_write, hnop, h256, h224, hcompress, hzeroize]
    | ok c =>
      rw [exec_wrCmd_of_ok hd, (decodeCommand_ok_iff v c).mp hd]
      cases c with
      | nop => simp [Command.instr, encodeCommand, exec_nop, hs, State.acked]
      | init x =>
        cases x with
        | sha256 => simp [Command.instr, encodeCommand, exec_initSha256, hs, State.acked]
        | sha224 => simp [Command.instr, encodeCommand, exec_initSha224, hs, State.acked]
      | compress => simp [Command.instr, encodeCommand, exec_compress, hs, State.acked, Status.accepted]
      | zeroize => simp [Command.instr, encodeCommand, exec_zeroize, hs, State.acked]

/-! ## The word without effect -/

/-- An idle state in which every command but NOP shows: no bit is set and H is neither zero nor an initial hash value. -/
def onesInHash : State := { State.reset with h := Vector.replicate 8 1 }

theorem onesInHash_idle : onesInHash.status.busy = false := rfl

/-- NOP's word is the only one that leaves `onesInHash` as it is. -/
theorem eq_nop_word_of_exec_onesInHash {v : Word} (h : exec (.wrCmd v) onesInHash = .next { onesInHash with response := .ack }) :
    v = 0x00000000#32 := by
  rw [cmdWriteFollowsTheTestChain v onesInHash] at h
  have hstate := Host.Outcome.next.inj h
  by_contra hnop
  simp only [onesInHash_idle, hnop, Bool.false_eq_true, if_false] at hstate
  split_ifs at hstate with h256 h224 hcompress hzeroize
  · exact absurd (congrArg State.h hstate) (by decide)
  · exact absurd (congrArg State.h hstate) (by decide)
  · exact absurd (congrArg (·.status.busy) hstate) (by decide)
  · exact absurd (congrArg State.h hstate) (by decide)
  · exact absurd (congrArg (·.status.errIll) hstate) (by decide)

/-- Settles O5: the five words and the field conditions from the decoder, ERR_ILL from `exec_wrCmd_illegal_idle`; NOP's word has no
effect in any idle state, and every other word has one in `onesInHash`. -/
theorem legalCommandWordsAreTheFive : Obligations.LegalCommandWordsAreTheFive := by
  intro v
  refine ⟨decodeCommand_eq_ok_iff_mem v, ?_, ?_, ?_, ?_⟩
  · rw [decodeCommand_eq_error_iff]
    simp [commandRsv, commandOp, commandVar, ← BitVec.toNat_inj]
  · rintro s hidle ⟨e, he⟩
    exact exec_wrCmd_illegal_idle hidle he
  · intro hnop
    exact eq_nop_word_of_exec_onesInHash (hnop onesInHash onesInHash_idle)
  · rintro rfl s hidle
    simp [cmdWriteFollowsTheTestChain 0x00000000#32 s, hidle]

/-! ## The worked encodings -/

/-- Settles O1: each descriptor is that of its row and offset, so its decoding is the row's; 0x0340 is no legal access, and 0x21 has
the reserved variant. -/
theorem workedEncodingsDecode : Obligations.WorkedEncodingsDecode := by
  refine ⟨decode_wrCmd _, ?_, decode_wrM 5, decode_rdH 7, ?_, ?_⟩
  · exact congrArg (Except.map Command.instr) (decodeCommand_encodeCommand .compress)
  · intro v s
    exact takeEvent_illegal (td := 0x0340#13) (by decide) v s
  · intro s hidle
    have hvar : decodeCommand 0x00000021#32 = .error .reservedVariant := by decide
    rw [takeEvent_ok (td := 0x1F00#13) (decode_wrCmd _), exec_wrCmd_illegal_idle hidle hvar, State.raise_illegal_write]

end Sys2Proof.Machine
end

section
/-! PROOFS. The word functions of 40_word_primitives.md (R120, R121, R123 to R128): each bit of the result, then the corner cases from
the bits or from the corner cases of the rotation and the shift. -/

namespace Sys2Proof.Machine

/-! ## The rotation and the shift -/

@[simp] theorem rotr_zero (n : Nat) : rotr n 0#32 = 0#32 := by simp [rotr]

@[simp] theorem shr_zero (n : Nat) : shr n 0#32 = 0#32 := by simp [shr]

theorem getLsbD_ones (k : Nat) : (0xFFFFFFFF#32).getLsbD k = decide (k < 32) :=
  BitVec.getLsbD_allOnes

/-- A rotation permutes the bits, and these are all 1. -/
theorem rotr_ones {n : Nat} (h1 : 1 ≤ n) (h2 : n ≤ 31) : rotr n 0xFFFFFFFF#32 = 0xFFFFFFFF#32 := by
  apply BitVec.eq_of_getLsbD_eq
  intro k hk
  rw [getLsbD_rotr n _ h1 h2 k hk, getLsbD_ones, getLsbD_ones]
  simp [hk, Nat.mod_lt]

/-- The top n bits are zeros (R121). -/
theorem getLsbD_shr_top {n k : Nat} (x : Word) (h : 32 - n ≤ k) : (shr n x).getLsbD k = false := by
  rw [getLsbD_shr]
  exact BitVec.getLsbD_of_ge _ _ (by omega)

/-- Both numbers have ones below position 32 - n and zeros from there on. -/
theorem toNat_shr_ones (n : Nat) : (shr n 0xFFFFFFFF#32).toNat = 2 ^ (32 - n) - 1 := by
  apply Nat.eq_of_testBit_eq
  intro k
  rw [BitVec.testBit_toNat, getLsbD_shr, getLsbD_ones, Nat.testBit_two_pow_sub_one]
  exact decide_eq_decide.mpr (by omega)

/-- Settles O35, from the model's `getLsbD_rotr` and the lemmas above; the sigma functions' amounts are their definitions. -/
theorem rotationAndShiftBitwise : Obligations.RotationAndShiftBitwise := by
  intro n x h1 h2
  exact ⟨rfl, getLsbD_rotr n x h1 h2, rotr_zero n, rotr_ones h1 h2, rfl, fun _ => getLsbD_shr_top x, toNat_shr_ones n,
    rfl, rfl, rfl, rfl⟩

/-! ## The sigma functions -/

section Bits
variable (x : Word) {k : Nat} (hk : k < 32)
include hk

theorem getLsbD_bigSigma0 : (bigSigma0 x).getLsbD k =
    ((x.getLsbD ((k + 2) % 32) ^^ x.getLsbD ((k + 13) % 32)) ^^ x.getLsbD ((k + 22) % 32)) := by
  simp only [bigSigma0, BitVec.getLsbD_xor, getLsbD_rotr, hk, Nat.one_le_ofNat, Nat.reduceLeDiff]

theorem getLsbD_bigSigma1 : (bigSigma1 x).getLsbD k =
    ((x.getLsbD ((k + 6) % 32) ^^ x.getLsbD ((k + 11) % 32)) ^^ x.getLsbD ((k + 25) % 32)) := by
  simp only [bigSigma1, BitVec.getLsbD_xor, getLsbD_rotr, hk, Nat.one_le_ofNat, Nat.reduceLeDiff]

theorem getLsbD_smallSigma0 : (smallSigma0 x).getLsbD k =
    ((x.getLsbD ((k + 7) % 32) ^^ x.getLsbD ((k + 18) % 32)) ^^ x.getLsbD (k + 3)) := by
  simp only [smallSigma0, BitVec.getLsbD_xor, getLsbD_rotr, getLsbD_shr, hk, Nat.one_le_ofNat, Nat.reduceLeDiff]

theorem getLsbD_smallSigma1 : (smallSigma1 x).getLsbD k =
    ((x.getLsbD ((k + 17) % 32) ^^ x.getLsbD ((k + 19) % 32)) ^^ x.getLsbD (k + 10)) := by
  simp only [smallSigma1, BitVec.getLsbD_xor, getLsbD_rotr, getLsbD_shr, hk, Nat.one_le_ofNat, Nat.reduceLeDiff]

end Bits

/-- Of the exclusive or of three all-ones words, all bits are 1. -/
theorem bigSigma0_ones : bigSigma0 0xFFFFFFFF#32 = 0xFFFFFFFF#32 := by
  simp [bigSigma0, rotr_ones]

theorem bigSigma1_ones : bigSigma1 0xFFFFFFFF#32 = 0xFFFFFFFF#32 := by
  simp [bigSigma1, rotr_ones]

/-- The two rotations cancel, so the shift is left, with its top three bits zero (R127). -/
theorem smallSigma0_ones : smallSigma0 0xFFFFFFFF#32 = 0x1FFFFFFF#32 := by
  simp [smallSigma0, rotr_ones, shr]

/-- The two rotations cancel, so the shift is left, with its top ten bits zero (R128). -/
theorem smallSigma1_ones : smallSigma1 0xFFFFFFFF#32 = 0x003FFFFF#32 := by
  simp [smallSigma1, rotr_ones, shr]

/-- Settles O37: the bits from the rotations and shifts of which each function is the exclusive or; 0 is kept by each of these. -/
theorem sigmaFunctionsBitwise : Obligations.SigmaFunctionsBitwise := by
  refine ⟨fun x k hk => ⟨getLsbD_bigSigma0 x hk, getLsbD_bigSigma1 x hk, getLsbD_smallSigma0 x hk, getLsbD_smallSigma1 x hk⟩,
    ?_, bigSigma0_ones, ?_, bigSigma1_ones, ?_, smallSigma0_ones, ?_, smallSigma1_ones⟩
  · simp [bigSigma0]
  · simp [bigSigma1]
  · simp [smallSigma0]
  · simp [smallSigma1]

/-! ## Choice and majority -/

/-- Each bit of x chooses (R123). -/
theorem getLsbD_ch (x y z : Word) (k : Nat) :
    (ch x y z).getLsbD k = if x.getLsbD k then y.getLsbD k else z.getLsbD k := by
  rw [ch, BitVec.getLsbD_xor, BitVec.getLsbD_and, BitVec.getLsbD_and, BitVec.getLsbD_not]
  by_cases hk : k < 32
  · rw [decide_eq_true hk]
    cases x.getLsbD k <;> simp
  · simp [BitVec.getLsbD_of_ge _ k (not_lt.mp hk)]

theorem ch_ones (y z : Word) : ch 0xFFFFFFFF#32 y z = y :=
  BitVec.eq_of_getLsbD_eq fun k hk => by rw [getLsbD_ch, getLsbD_ones, decide_eq_true hk, if_pos rfl]

theorem ch_zero (y z : Word) : ch 0 y z = z :=
  BitVec.eq_of_getLsbD_eq fun k _ => by simp [getLsbD_ch]

theorem ch_same (x y : Word) : ch x y y = y :=
  BitVec.eq_of_getLsbD_eq fun k _ => by simp [getLsbD_ch]

/-- Each bit is the majority of the three (R124). -/
theorem getLsbD_maj (x y z : Word) (k : Nat) : (maj x y z).getLsbD k =
    ((x.getLsbD k && y.getLsbD k) || (x.getLsbD k && z.getLsbD k) || (y.getLsbD k && z.getLsbD k)) := by
  rw [maj, BitVec.getLsbD_xor, BitVec.getLsbD_xor, BitVec.getLsbD_and, BitVec.getLsbD_and, BitVec.getLsbD_and]
  generalize x.getLsbD k = a, y.getLsbD k = b, z.getLsbD k = c
  revert a b c
  decide

/-- Two equal votes are a majority. -/
theorem maj_same (x z : Word) : maj x x z = x := by
  apply BitVec.eq_of_getLsbD_eq
  intro k _
  rw [getLsbD_maj]
  cases x.getLsbD k <;> simp

theorem maj_swap_left (x y z : Word) : maj x y z = maj y x z := by
  rw [maj, maj, BitVec.and_comm x y, BitVec.xor_assoc, BitVec.xor_comm (x &&& z), BitVec.xor_assoc]

theorem maj_swap_right (x y z : Word) : maj x y z = maj x z y := by
  rw [maj, maj, BitVec.and_comm y z, BitVec.xor_comm (x &&& y)]

/-- Settles O36: the corner cases follow from the bits, the symmetry from that of the defining formula. -/
theorem choiceAndMajorityBitwise : Obligations.ChoiceAndMajorityBitwise := by
  intro x y z
  exact ⟨rfl, getLsbD_ch x y z, ch_ones y z, ch_zero y z, ch_same x y, rfl, getLsbD_maj x y z, maj_same x z,
    maj_swap_left x y z, maj_swap_right x y z⟩

end Sys2Proof.Machine
end

section
/-! PROOFS. The compression of 41_compression.md: its constants (R150), its recurrences (R152 to R156) and the acceptance of COMPRESS
(R170). -/

namespace Sys2Proof.Machine

open Sys2Proof.Laws

/-! ## The recurrences -/

/-- The schedule begins with the words of the block (R152, t < 16). -/
theorem schedule_getD_block (m : Vector Word 16) (t : Fin 16) : (schedule m).getD t 0 = m[t] := by
  rw [schedule, scheduleExtend_getD _ _ (by simp)]
  simp

/-- The later words of the schedule (R152, t ≥ 16). -/
theorem schedule_getD_next (m : Vector Word 16) {t : Nat} (h1 : 16 ≤ t) (h2 : t < 64) :
    (schedule m).getD t 0 = smallSigma1 ((schedule m).getD (t - 2) 0) + (schedule m).getD (t - 7) 0 +
      smallSigma0 ((schedule m).getD (t - 15) 0) + (schedule m).getD (t - 16) 0 :=
  scheduleExtend_next _ m.toList t (by simpa using h1) (by simpa [Config.scheduleWords, Config.blockWords] using h2) (by simp)

/-- A round assigns all eight variables at once, from their values at its start (R154). -/
theorem compressionRound_eq (x : Working) (k w : Word) : compressionRound x (k, w) =
    let t1 := x.h + bigSigma1 x.e + ch x.e x.f x.g + k + w
    let t2 := bigSigma0 x.a + maj x.a x.b x.c
    ⟨t1 + t2, x.a, x.b, x.c, x.d + t1, x.e, x.f, x.g⟩ := rfl

/-- The compression is the feed-forward of the working variables after round 63 (R155, R156). -/
theorem compress_eq_feedForward (h : Vector Word 8) (m : Vector Word 16) :
    compress h m = feedForward h (workingAfter (workingOf h) (schedule m) 64) := by
  rw [workingAfter_all _ _ (schedule_length m), compress]

/-- R156's worked example: the block is the padded message "abc". -/
theorem compress_abc :
    compress iv256 #v[0x61626380#32, 0, 0, 0, 0, 0, 0, 0, 0, 0, 0, 0, 0, 0, 0, 0x00000018#32] =
      #v[0xBA7816BF#32, 0x8F01CFEA#32, 0x414140DE#32, 0x5DAE2223#32,
         0xB00361A3#32, 0x96177A9C#32, 0xB410FF61#32, 0xF20015AD#32] := by decide +kernel

/-- Settles O39: the sequences are the schedule's words and the working variables after each number of rounds
(`workingAfter`), whose last the feed-forward takes. -/
theorem compressObeysTheRecurrences : Obligations.CompressObeysTheRecurrences := by
  intro h m
  refine ⟨fun t => (schedule m).getD t 0, workingAfter (workingOf h) (schedule m), schedule_getD_block m,
    fun t => schedule_getD_next m, rfl, fun t ht => ?_, compress_eq_feedForward h m, compress_abc⟩
  exact (workingAfter_succ _ _ (schedule_length m) t ht).trans (compressionRound_eq _ _ _)

/-! ## The acceptance of COMPRESS -/

/-- STATUS at an acceptance, field by field (R170). -/
theorem Status.accepted_eq (s : Status) : s.accepted = { s with busy := true, done := false } := rfl

/-- Settles O11, from the model's `exec_compress`; a transaction that is an access error leaves BUSY as it is, whatever its data. -/
theorem compressAcceptanceSetsBusy : Obligations.CompressAcceptanceSetsBusy := by
  refine ⟨rfl, fun s => ⟨exec_wrCmd_of_ok (decodeCommand_encodeCommand .compress) s, ?_, ?_, ?_⟩⟩
  · intro hidle
    simp [exec_compress, hidle, State.acked, Status.accepted_eq]
  · intro hbusy
    simp [exec_compress, hbusy, State.raise_busy_write]
  · intro td t hillegal hstep
    rw [takeEvent_illegal hillegal] at hstep
    cases hstep
    rw [State.raise_status, Status.withError_busy]

/-! ## The constants -/

/-- The first 64 primes, which R150, R193 and R194 name by their number. -/
def firstPrimes : List Nat :=
  [2, 3, 5, 7, 11, 13, 17, 19, 23, 29, 31, 37, 41, 43, 47, 53,
   59, 61, 67, 71, 73, 79, 83, 89, 97, 101, 103, 107, 109, 113, 127, 131,
   137, 139, 149, 151, 157, 163, 167, 173, 179, 181, 191, 193, 197, 199, 211, 223,
   227, 229, 233, 239, 241, 251, 257, 263, 269, 271, 277, 281, 283, 293, 307, 311]

/-- The first 64 primes are those below 312, by trial division. -/
theorem firstPrimes_eq_filter : firstPrimes = (List.range 312).filter fun n =>
    decide (2 ≤ n) && (List.range n).all fun d => decide (d < 2) || n % d != 0 := by decide +kernel

/-- K[t] is the lowest 32 bits of the whole part of 2^32 times the cube root (R150). -/
theorem roundConstants_eq_nthRoot : ∀ t < 64,
    roundConstants.getD t 0 = BitVec.ofNat 32 (Nat.nthRoot 3 (firstPrimes.getD t 0 * 2 ^ 96)) := by decide +kernel

/-- IV256[i] is the lowest 32 bits of the whole part of 2^32 times the square root (R193). -/
theorem iv256_eq_sqrt : ∀ i : Fin 8, iv256[i] = BitVec.ofNat 32 (Nat.sqrt (firstPrimes.getD i.val 0 * 2 ^ 64)) := by
  decide +kernel

/-- IV224[i] is the lowest 32 bits of the whole part of 2^64 times the square root (R194). -/
theorem iv224_eq_sqrt : ∀ i : Fin 8, iv224[i] = BitVec.ofNat 32 (Nat.sqrt (firstPrimes.getD (i.val + 8) 0 * 2 ^ 128)) := by
  decide +kernel

/-- Settles O38: each constant is a remainder of an integer root (`Nat.nthRoot`, `Nat.sqrt`), which has the bounds of a whole part. -/
theorem constantsAreFractionsOfPrimeRoots : Obligations.ConstantsAreFractionsOfPrimeRoots := by
  unfold Obligations.ConstantsAreFractionsOfPrimeRoots
  intro primes
  have hprimes : firstPrimes = primes := firstPrimes_eq_filter
  rw [← hprimes]
  refine ⟨rfl, rfl, rfl, rfl, fun t ht => ?_, fun i => ?_, fun i => ?_⟩
  · exact ⟨_, Nat.pow_nthRoot_le (.inl three_ne_zero), Nat.lt_pow_nthRoot_add_one three_ne_zero _, roundConstants_eq_nthRoot t ht⟩
  · exact ⟨_, Nat.sqrt_le' _, Nat.lt_succ_sqrt' _, iv256_eq_sqrt i⟩
  · exact ⟨_, Nat.sqrt_le' _, Nat.lt_succ_sqrt' _, iv224_eq_sqrt i⟩

end Sys2Proof.Machine
end

section
/-! PROOFS. The control commands of 42_control_commands.md: NOP (R190), INIT (R191, R192) and ZEROIZE (R195). What they share with
every command is said once: how the word decodes, that a write of it to CMD runs the command, and the refusal while busy. -/

namespace Sys2Proof.Machine

open Sys2Proof.Laws

/-! ## What every command shares -/

theorem decode_encodeCommand (c : Command) : decode (.command (encodeCommand c)) = .ok c.instr :=
  congrArg (Except.map Command.instr) (decodeCommand_encodeCommand c)

/-- A command is a write of its word to CMD (30_encoding.md R90). -/
theorem exec_wrCmd_encodeCommand (c : Command) (s : State) : exec (.wrCmd (encodeCommand c)) s = exec c.instr s :=
  exec_wrCmd_of_ok (decodeCommand_encodeCommand c) s

/-- Busy, a command is refused whichever it is, for the write of its word is (60_exceptions.md R252). -/
theorem exec_command_busy {s : State} (hbusy : s.status.busy = true) (c : Command) :
    exec c.instr s = .next { s with status := { s.status with errBusy := true }, response := .ack } := by
  rw [← exec_wrCmd_encodeCommand, exec_wrCmd_busy hbusy, State.raise_busy_write]

/-! ## NOP -/

/-- Settles O7: idle, NOP is acknowledged and nothing else (`exec_nop`). -/
theorem nopChangesNoRegister : Obligations.NopChangesNoRegister := by
  refine ⟨decode_encodeCommand .nop, fun s =>
    ⟨exec_wrCmd_encodeCommand .nop s, ?_, fun hbusy => exec_command_busy hbusy .nop⟩⟩
  intro hidle
  simp [exec_nop, hidle, State.acked]

/-! ## INIT -/

/-- Settles O8: idle, H is IV256, whose words are those of R193 (`exec_initSha256`). -/
theorem initSha256LoadsItsInitialHash : Obligations.InitSha256LoadsItsInitialHash := by
  refine ⟨decode_encodeCommand (.init .sha256), fun s =>
    ⟨exec_wrCmd_encodeCommand (.init .sha256) s, ?_, fun hbusy => exec_command_busy hbusy (.init .sha256)⟩⟩
  intro hidle
  simp [exec_initSha256, hidle, State.acked, iv256]

/-- The words of an INIT with a reserved VAR (0b10 and 0b11) decode to no command (R192). -/
theorem decodeCommand_reservedVariant : ∀ v ∈ [0x00000021#32, 0x00000031#32],
    decodeCommand v = .error .reservedVariant :=
  List.forall_mem_cons.mpr ⟨by decide, List.forall_mem_singleton.mpr (by decide)⟩

/-- Settles O9: idle, H is IV224, whose words are those of R194 (`exec_initSha224`); a reserved VAR is an illegal word. -/
theorem initSha224LoadsItsInitialHash : Obligations.InitSha224LoadsItsInitialHash := by
  refine ⟨decode_encodeCommand (.init .sha224), fun s =>
    ⟨exec_wrCmd_encodeCommand (.init .sha224) s, ?_, fun hbusy => exec_command_busy hbusy (.init .sha224), ?_⟩⟩
  · intro hidle
    simp [exec_initSha224, hidle, State.acked, iv224]
  · intro hidle v hv
    rw [exec_wrCmd_illegal_idle hidle (decodeCommand_reservedVariant v hv), State.raise_illegal_write]

/-! ## ZEROIZE -/

/-- Settles O10: idle, every word of H and M is zero and no more changes (`exec_zeroize`). -/
theorem zeroizeClearsHashAndBlock : Obligations.ZeroizeClearsHashAndBlock := by
  refine ⟨decode_encodeCommand .zeroize, fun s =>
    ⟨exec_wrCmd_encodeCommand .zeroize s, ?_, fun hbusy => exec_command_busy hbusy .zeroize⟩⟩
  intro hidle
  rw [exec_zeroize, hidle]
  rfl

end Sys2Proof.Machine
end

section
/-! PROOFS. The padding and the digest of 43_padding_and_digest.md: the form and the length of a padded message (R221, R223), the
digest's length (R229) and the empty message (R230). -/

namespace Sys2Proof.Machine

/-! ## Padding -/

/-- k is the smallest count of zeros that fills a block (R221): it is at most 63, and all such counts are congruent modulo 64. -/
theorem padZeros_le {len k : Nat} (hfills : (len + 1 + k + 8) % 64 = 0) : padZeros len ≤ k := by
  obtain ⟨hsmall, hcong⟩ := padZeros_eq len
  omega

/-- The padding ends in the block that holds the 0x80 exactly if the message leaves at most 55 bytes in that block (R223). -/
theorem blockCount_eq_succ_iff (len : Nat) : blockCount len = len / 64 + 1 ↔ len % 64 ≤ 55 := by
  rw [blockCount]
  omega

/-- Settles O51: the form is `pad`'s, k is `padZeros` with its bound and residue (`padZeros_eq`), and the length is `pad_length`. -/
theorem paddingFillsWholeBlocks : Obligations.PaddingFillsWholeBlocks := by
  intro msg
  obtain ⟨hsmall, hcong⟩ := padZeros_eq msg.length
  exact ⟨rfl, hsmall, hcong, fun _ => padZeros_le, be64_length _, pad_length msg, blockCount_eq_succ_iff _⟩

/-! ## The digest's length -/

theorem bytesBE_length (w : Word) : (bytesBE w).length = 4 := rfl

/-- A digest has four bytes for each word its variant keeps, whatever the final state (R227, R228). -/
theorem serializeDigest_length (v : Variant) (h : Vector Word 8) : (serializeDigest v h).length = 4 * digestWords v := by
  have hkept : (h.toList.take (digestWords v)).length = digestWords v := by
    rw [List.length_take, Vector.length_toList]
    cases v <;> rfl
  simp only [serializeDigest, List.length_flatMap, bytesBE_length, List.map_const', List.sum_replicate, hkept, smul_eq_mul,
    Nat.mul_comm]

/-- Settles O54: the length depends on the variant only (`serializeDigest_length`). -/
theorem digestLengthIsFixed : Obligations.DigestLengthIsFixed :=
  fun _ => ⟨serializeDigest_length .sha256 _, serializeDigest_length .sha224 _⟩

/-! ## The empty message -/

/-- The one block of the padded empty message (R230). -/
def emptyMessageBlock : Vector Word 16 := #v[0x80000000#32, 0, 0, 0, 0, 0, 0, 0, 0, 0, 0, 0, 0, 0, 0, 0]

theorem messageBlocks_nil : messageBlocks [] = [emptyMessageBlock] := by decide +kernel

/-- The digest of a message of one block is the compression of that block from the initial hash value (R225). -/
theorem messageDigest_of_one_block {msg : List Byte} {b : Vector Word 16} (v : Variant) (hblock : messageBlocks msg = [b]) :
    messageDigest v msg = serializeDigest v (compress (initialHash v) b) := by
  rw [messageDigest, hblock, chain, List.foldl_cons, List.foldl_nil]

theorem compress_iv256_emptyMessageBlock : compress iv256 emptyMessageBlock =
    #v[0xE3B0C442#32, 0x98FC1C14#32, 0x9AFBF4C8#32, 0x996FB924#32,
       0x27AE41E4#32, 0x649B934C#32, 0xA495991B#32, 0x7852B855#32] := by decide +kernel

/-- Settles O55: the empty message has one block, whose compression from IV256 gives the digest's words. -/
theorem emptyMessageDigest : Obligations.EmptyMessageDigest := by
  refine ⟨messageBlocks_nil, ?_⟩
  rw [messageDigest_of_one_block .sha256 messageBlocks_nil, initialHash, compress_iv256_emptyMessageBlock]
  decide

end Sys2Proof.Machine
end

section
/-! PROOFS. The error conditions of 60_exceptions.md one by one (R251, R252), the order of their checks (R255) and the interrupt
output (R260). What a step does to STATUS is taken from `StatusRule`. -/

namespace Sys2Proof.Machine

open Sys2Proof.Laws

/-! ## ERR_BUSY -/

/-- Busy, a legal write to CMD, H or M is refused, whichever register it names (R252). -/
theorem takeEvent_refusedWrite {td : Td} {s : State} (hbusy : s.status.busy = true) (hlegal : tdLegal td = true)
    (hwrite : tdWe td = true) (hguarded : guardedOffset (tdOff td) = true) (v : Word) :
    takeEvent (.bus ⟨td, v⟩) s = .next (s.raise .busy true) := by
  refine takeEvent_of_effect fun u hu => ?_
  cases hu with
  | refusedWrite => rfl
  | access _ _ hl => simp [hlegal] at hl
  | wrStatus | wrCtrl => simp [system_offsets] at hguarded
  | ignored off _ _ hg => simp [hg] at hguarded
  | read _ _ _ hw => simp [hw] at hwrite
  | draw => simp at hwrite
  | illegal _ hidle | nop hidle | init _ hidle | compress hidle | zeroize hidle | wrH _ _ hidle | wrM _ _ hidle =>
    simp [hidle] at hbusy

/-- A turn of the engine while a compression is in flight, field by field (41_compression.md R175). -/
theorem takeEvent_engine_busy {s : State} (hbusy : s.status.busy = true) : takeEvent .engine s =
    .next { s with h := compress s.h s.m, status := s.status.completed, response := .quiet } := by
  show Host.Outcome.next s.engineTurn = _
  rw [State.engineTurn, if_pos hbusy, State.complete]

/-- Settles O27: the refusal is `takeEvent_refusedWrite` and leaves H, M and BUSY to the completion; a legal transaction that is not
such a write is none of the causes that set ERR_BUSY (`StatusRule.errBusy`). -/
theorem busyWriteSetsErrBusyOnly : Obligations.BusyWriteSetsErrBusyOnly := by
  intro td v s hbusy hlegal
  refine ⟨fun hwrite hguarded => ⟨?_, .quiet, ?_⟩, fun hother => ?_⟩
  · rw [takeEvent_refusedWrite hbusy hlegal hwrite hguarded, State.raise_busy_write]
  · exact takeEvent_engine_busy hbusy
  · obtain ⟨t, ht, heffect⟩ := takeEvent_effect (.bus ⟨td, v⟩) s
    refine ⟨t, ht, fun hset => ?_⟩
    rcases heffect.statusRule.errBusy.mp hset with hrefused | ⟨hkept, -⟩
    · obtain ⟨-, -, hwrite, hguarded⟩ := (refusedWrite_bus _ _ _).mp hrefused
      simp [hwrite, hguarded] at hother
    · exact hkept

/-! ## ERR_ILL -/

/-- A word that does not decode is none of the five of R95. -/
theorem decodeCommand_isOk_eq_false_iff (v : Word) : (decodeCommand v).isOk = false ↔
    v ∉ [0x00000000#32, 0x00000001#32, 0x00000011#32, 0x00000002#32, 0x00000003#32] := by
  rw [← decodeCommand_isOk_iff, Bool.not_eq_true]

/-- Idle, a legal write to CMD of a word that does not decode is an illegal command (R251). -/
theorem takeEvent_illegalCommand {s : State} (hidle : s.status.busy = false) {v : Word}
    (hv : (decodeCommand v).isOk = false) :
    takeEvent (.bus ⟨writeTd 0x00#8, v⟩) s = .next (s.raise .illegal true) := by
  cases hd : decodeCommand v with
  | error e => rw [takeEvent_ok (decode_wrCmd v), exec_wrCmd_illegal_idle hidle hd]
  | ok c => simp [hd, Except.isOk, Except.toBool] at hv

/-- Settles O28: the effect is `takeEvent_illegalCommand`, and only that cause sets ERR_ILL where it was 0 (`StatusRule.errIll`). -/
theorem illegalCommandSetsErrIllOnly : Obligations.IllegalCommandSetsErrIllOnly := by
  constructor
  · intro v s hidle hv
    exact takeEvent_illegalCommand hidle ((decodeCommand_isOk_eq_false_iff v).mpr hv)
  · intro e s t hstep hclear hset
    rcases (effect_of_takeEvent hstep).statusRule.errIll.mp hset with ⟨hidle, v, hwrite, hv⟩ | ⟨hkept, -⟩
    · exact ⟨hidle, v, hwrite, (decodeCommand_isOk_eq_false_iff v).mp hv⟩
    · simp [hclear] at hkept

/-! ## The order of the checks -/

/-- A legal write is known by its offset: all four bytes are enabled. -/
theorem eq_writeTd_of_legal_write {td : Td} (hlegal : tdLegal td = true) (hwrite : tdWe td = true) :
    td = writeTd (tdOff td) := by
  obtain ⟨hbe, -⟩ : tdBe td = 0b1111#4 ∧ (tdOff td).extractLsb' 0 2 = 0b00#2 := by simpa [tdLegal] using hlegal
  rw [writeTd, ← hbe, ← hwrite, makeTd_of_fields]

/-- A legal transaction that is no refused write and no illegal command sets no error bit. -/
theorem no_error_bit_set {td : Td} {v : Word} {s t : State} (heffect : Effect s (.bus ⟨td, v⟩) t)
    (hlegal : tdLegal td = true) (hbusy : ¬ (s.status.busy = true ∧ tdWe td = true ∧ guardedOffset (tdOff td) = true))
    (hcmd : ¬ (tdWe td = true ∧ tdOff td = 0x00#8 ∧ (decodeCommand v).isOk = false)) :
    (t.status.errAcc = true → s.status.errAcc = true) ∧ (t.status.errBusy = true → s.status.errBusy = true) ∧
      (t.status.errIll = true → s.status.errIll = true) := by
  obtain ⟨-, -, hill, hbus, hacc⟩ := heffect.statusRule
  have hnacc : ¬ AccessError (.bus ⟨td, v⟩) := by simp [hlegal]
  have hnbusy : ¬ RefusedWrite s.status (.bus ⟨td, v⟩) := by simpa [hlegal] using hbusy
  have hnill : ¬ IllegalCommand s.status (.bus ⟨td, v⟩) := by
    rw [illegalCommand_bus]
    rintro ⟨-, rfl, hv⟩
    exact hcmd ⟨tdWe_writeTd 0x00#8, tdOff_writeTd 0x00#8, hv⟩
  exact ⟨fun hset => ((hacc.mp hset).resolve_left hnacc).1, fun hset => ((hbus.mp hset).resolve_left hnbusy).1,
    fun hset => ((hill.mp hset).resolve_left hnill).1⟩

/-- Settles O29: one branch for each check of R255, and `no_error_bit_set` where none of them holds. -/
theorem firstErrorCheckDecides : Obligations.FirstErrorCheckDecides := by
  intro td v s
  split_ifs with hillegal hrefused hcmd
  · exact ⟨_, takeEvent_illegal hillegal v s, rfl⟩
  · obtain ⟨hbusy, hwrite, hguarded⟩ := hrefused
    exact ⟨_, takeEvent_refusedWrite hbusy (by simpa using hillegal) hwrite hguarded v, rfl⟩
  · obtain ⟨hwrite, hoff, hv⟩ := hcmd
    have htd : td = writeTd 0x00#8 := hoff ▸ eq_writeTd_of_legal_write (by simpa using hillegal) hwrite
    have hidle : s.status.busy = false := by simpa [htd, system_offsets] using hrefused
    exact ⟨_, htd ▸ takeEvent_illegalCommand hidle hv, rfl⟩
  · obtain ⟨t, ht, heffect⟩ := takeEvent_effect (.bus ⟨td, v⟩) s
    exact ⟨t, ht, no_error_bit_set heffect (by simpa using hillegal) hrefused hcmd⟩

/-! ## The interrupt output -/

/-- The sources that hold IRQ high (R260). -/
theorem State.irq_eq_true_iff (s : State) : s.irq = true ↔
    (s.status.done = true ∧ s.ctrl.doneIe = true) ∨ (s.status.anyError = true ∧ s.ctrl.errIe = true) := by
  simp [State.irq]

/-- CTRL changes in a write to it and in a reset only (10_state.md R39). -/
theorem Effect.ctrl_eq_or {s t : State} {e : Event} (h : Effect s e t) :
    t.ctrl = s.ctrl ∨ (∃ v, e = .bus ⟨0x1F08#13, v⟩) ∨ IsReset e := by
  cases h with
  | wrCtrl v => exact .inr (.inl ⟨v, rfl⟩)
  | reset d => exact .inr (.inr ⟨d, rfl⟩)
  | _ => exact .inl (by simp)

/-- An error bit stays set but for a write to STATUS and a reset. -/
theorem StatusRule.anyError_kept {σ τ : Status} {e : Event} (h : StatusRule σ e τ) (hset : σ.anyError = true)
    (hclears : ∀ k, ¬ ClearsBit e k) (hreset : ¬ IsReset e) : τ.anyError = true := by
  simp only [Status.anyError, Bool.or_eq_true] at hset ⊢
  exact hset.imp
    (.imp (fun hill => h.errIll.mpr (.inr ⟨hill, hclears 2, hreset⟩)) fun hbus => h.errBusy.mpr (.inr ⟨hbus, hclears 3, hreset⟩))
    fun hacc => h.errAcc.mpr (.inr ⟨hacc, hclears 4, hreset⟩)

/-- What IRQ rises in: a completion, an error or a write to CTRL. -/
theorem Effect.irq_rises {s t : State} {e : Event} (h : Effect s e t) (hlow : s.irq = false) (hhigh : t.irq = true) :
    (e = .engine ∧ s.status.busy = true ∧ s.ctrl.doneIe = true) ∨
    (s.ctrl.errIe = true ∧ s.status.anyError = false ∧ t.status.anyError = true) ∨
    ∃ v, e = .bus ⟨0x1F08#13, v⟩ := by
  rcases h.ctrl_eq_or with hctrl | hwrite | ⟨d, rfl⟩
  · rw [State.irq_eq_true_iff, hctrl] at hhigh
    rw [← Bool.not_eq_true, State.irq_eq_true_iff] at hlow
    rcases hhigh with ⟨hdone, hie⟩ | ⟨herr, hie⟩
    · rcases h.statusRule.done.mp hdone with ⟨hbusy, he⟩ | ⟨hwas, -⟩
      · exact .inl ⟨he, hbusy, hie⟩
      · exact absurd (.inl ⟨hwas, hie⟩) hlow
    · have hclear : s.status.anyError = false := by simpa [hie] using mt Or.inr hlow
      exact .inr (.inl ⟨hie, hclear, herr⟩)
  · exact .inr (.inr hwrite)
  · cases h
    rw [State.irq_of_status_clear (State.resetDuring_status s d)] at hhigh
    contradiction

/-- What IRQ falls in: a write to STATUS or CTRL, the acceptance of a COMPRESS or a reset. Any other step keeps the source that
holds it high, with its enable. -/
theorem Effect.irq_falls {s t : State} {e : Event} (h : Effect s e t) (hhigh : s.irq = true) (hlow : t.irq = false) :
    (∃ v, e = .bus ⟨0x1F04#13, v⟩) ∨ (∃ v, e = .bus ⟨0x1F08#13, v⟩) ∨ e = .bus ⟨0x1F00#13, 0x00000002#32⟩ ∨ IsReset e := by
  by_contra hnone
  obtain ⟨hstatus, hwrite, hcompress, hreset⟩ := by simpa only [not_or] using hnone
  have hctrl : t.ctrl = s.ctrl := h.ctrl_eq_or.resolve_right fun hc => hc.elim hwrite hreset
  have hclears : ∀ k, ¬ ClearsBit e k := fun _ ⟨v, he, _⟩ => hstatus ⟨v, he⟩
  have haccepts : ¬ Accepts s.status e := fun ⟨_, he⟩ => hcompress he
  have hstill : t.irq = true := by
    rw [State.irq_eq_true_iff, hctrl]
    exact ((State.irq_eq_true_iff s).mp hhigh).imp
      (.imp_left fun hdone => h.statusRule.done.mpr (.inr ⟨hdone, hclears 1, haccepts, hreset⟩))
      (.imp_left fun herr => h.statusRule.anyError_kept herr hclears hreset)
  simp [hlow] at hstill

/-- Settles O33: R260's formula is the model's, and IRQ moves only in the effects that `Effect.irq_rises` and `Effect.irq_falls` name. -/
theorem irqLevelRisesAndFalls : Obligations.IrqLevelRisesAndFalls :=
  ⟨fun _ => rfl, fun _ _ hstep => ⟨(effect_of_step hstep).irq_rises, (effect_of_step hstep).irq_falls⟩⟩

end Sys2Proof.Machine
end

section
/-! PROOFS. What a reset does to a transaction in progress (70_reset_and_hazards.md R281) and to a compression in flight (R282). -/

namespace Sys2Proof.Machine

/-! ## A compression in flight -/

/-- What ends BUSY: a turn of the engine, which completes the compression, or a reset (R282). -/
theorem StatusRule.busy_ends {σ τ : Status} {e : Event} (h : StatusRule σ e τ) (hbusy : σ.busy = true)
    (hidle : τ.busy = false) : e = .engine ∨ IsReset e := by
  by_contra hother
  obtain ⟨hengine, hreset⟩ := not_or.mp hother
  have hstill : τ.busy = true := h.busy.mpr (.inr ⟨hbusy, hengine, hreset⟩)
  simp [hidle] at hstill

/-- Settles O46: a reset leaves the engine idle (the `resetDuring` lemmas), and turns of an idle engine complete nothing
(`idle_engine_run`); what ends BUSY is `StatusRule.busy_ends`. -/
theorem onlyResetAbortsACompression : Obligations.OnlyResetAbortsACompression := by
  intro s hbusy
  constructor
  · intro d n
    obtain ⟨u, hrun, hh, hm, hstatus⟩ :=
      idle_engine_run n { s.resetDuring d with inputs := List.replicate n .engine } (by simp) rfl
    exact ⟨s.resetDuring d, u, rfl, s.resetDuring_h d, s.resetDuring_m d, s.resetDuring_status d, s.resetDuring_ctrl d,
      hrun, by simp [hh], by simp [hm], by simp [hstatus], by simp [hstatus]⟩
  · intro e t hstep hidle
    exact (effect_of_takeEvent hstep).statusRule.busy_ends hbusy hidle

/-! ## A transaction in progress -/

/-- A write in progress at reset leaves the reset state: its offset and its data are lost (R281). -/
theorem State.resetDuring_write (s : State) {x : Transaction} (hwrite : tdWe x.td = true) :
    s.resetDuring (some x) = s.resetEngine.acked := by simp [resetDuring, hwrite]

/-- A read in progress at reset leaves the reset state and returns a draw, whatever register it names (R281). -/
theorem State.resetDuring_read (s : State) {x : Transaction} (hread : tdWe x.td = false) :
    s.resetDuring (some x) = s.resetEngine.returnsDraw := by simp [resetDuring, hread]

/-- Settles O45: a reset step is `resetDuring` (`step_reset`), with a write and with a read in progress. -/
theorem transactionInProgressAtResetIsLost : Obligations.TransactionInProgressAtResetIsLost := by
  intro s x rest hinputs
  rw [step_reset hinputs]
  constructor
  · intro hwrite
    exact ⟨.ack, by rw [State.resetDuring_write _ hwrite]; rfl⟩
  · intro hread
    exact ⟨Config.draw s.draws, s.draws + 1, by rw [State.resetDuring_read _ hread]; rfl⟩

end Sys2Proof.Machine
end

section
/-! PROOFS. The encoding of 30_encoding.md as a whole: the round trip in both directions, the decode table as a partition of the legal
accesses (R97), and that a step runs what the decoder reads. -/

namespace Sys2Proof.Machine

open Sys2Proof.Laws

/-! ## The round trip -/

/-- Settles O3: one round trip for each constructor, from `Laws.RoundTrip`. -/
theorem decodeInvertsEncode : Obligations.DecodeInvertsEncode := by
  intro i
  cases i with
  | nop => exact RoundTrip.nop
  | initSha256 => exact RoundTrip.initSha256
  | initSha224 => exact RoundTrip.initSha224
  | compress => exact RoundTrip.compress
  | zeroize => exact RoundTrip.zeroize
  | rdCmd => exact RoundTrip.rdCmd
  | wrCmd v => exact RoundTrip.wrCmd v
  | rdStatus => exact RoundTrip.rdStatus
  | wrStatus v => exact RoundTrip.wrStatus v
  | rdCtrl => exact RoundTrip.rdCtrl
  | wrCtrl v => exact RoundTrip.wrCtrl v
  | rdInfo => exact RoundTrip.rdInfo
  | wrInfo v => exact RoundTrip.wrInfo v
  | rdRsvdLo off => exact RoundTrip.rdRsvdLo off
  | wrRsvdLo off v => exact RoundTrip.wrRsvdLo off v
  | rdH i => exact RoundTrip.rdH i
  | wrH i v => exact RoundTrip.wrH i v
  | rdM j => exact RoundTrip.rdM j
  | wrM j v => exact RoundTrip.wrM j v
  | rdRsvdHi off => exact RoundTrip.rdRsvdHi off
  | wrRsvdHi off v => exact RoundTrip.wrRsvdHi off v

/-- A read carries no write data: its encoding has 0 there. -/
theorem transaction_readTd (off : Offset) (v : Word) :
    Encoded.transaction (readTd off) 0 = .transaction (readTd off) (if tdWe (readTd off) then v else 0) := by simp

/-- A write carries its data. -/
theorem transaction_writeTd (off : Offset) (v : Word) :
    Encoded.transaction (writeTd off) v = .transaction (writeTd off) (if tdWe (writeTd off) then v else 0) := by simp

/-- Settles O4: `Decoded` gives the offset of the descriptor for each instruction the decoder answers, and the encoder uses that
offset; the reserved rows give the range that well-formedness asks for. -/
theorem encodeRecoversTheDescriptor : Obligations.EncodeRecoversTheDescriptor := by
  intro td v i hi
  have hdecoded := decodeTransaction_decoded td v
  rw [hi] at hdecoded
  cases hdecoded with
  | rdRsvdLo off hr h | rdRsvdHi off hr h => exact h ▸ ⟨hr, transaction_readTd off v⟩
  | wrRsvdLo off hr h | wrRsvdHi off hr h => exact h ▸ ⟨hr, transaction_writeTd off v⟩
  | rdCmd h | rdStatus h | rdCtrl h | rdInfo h | rdH i h | rdM j h => exact h ▸ ⟨rfl, transaction_readTd _ v⟩
  | wrCmd h | wrStatus h | wrCtrl h | wrInfo h | wrH i h | wrM j h => exact h ▸ ⟨rfl, transaction_writeTd _ v⟩

/-! ## The decode table -/

/-- Each legal descriptor {1111, WE, n, 00} matches one row of R97. -/
theorem one_row_matches_a_legal_access : ∀ (we : Bool) (n : BitVec 6),
    (tdRows.filter (·.matches (makeTd 0b1111#4 we (n ++ 0#2)))).length = 1 := by decide +kernel

/-- Settles O2: a row fixes the bits of a legal access (`tdLegal_of_row_matches`), so no other descriptor matches any. -/
theorem tdRowsPartitionTheLegalAccesses : Obligations.TdRowsPartitionTheLegalAccesses := by
  intro td
  cases hlegal : tdLegal td with
  | true =>
    obtain ⟨n, hn⟩ := tdLegal_form hlegal
    rw [hn]
    exact one_row_matches_a_legal_access _ n
  | false =>
    have hnone : tdRows.filter (·.matches td) = [] := by
      rw [List.filter_eq_nil_iff]
      intro r hr hmatches
      simp [tdLegal_of_row_matches hr hmatches] at hlegal
    simp [hnone]

/-! ## Decoding in a step -/

/-- A descriptor that decodes to nothing is an illegal access. -/
theorem tdLegal_of_decode_error {td : Td} {v : Word} {r : DecodeError} (h : decodeTransaction td v = .error r) :
    tdLegal td = false := by
  have hdecoded := decodeTransaction_decoded td v
  rw [h] at hdecoded
  cases hdecoded with
  | illegal _ hl => exact hl

/-- The transaction of an encoded instruction runs what it decodes to, in either encoded space. -/
theorem takeEvent_ofEncoded {e : Encoded} {i : Instr} (h : decode e = .ok i) (s : State) :
    takeEvent (.bus (Transaction.ofEncoded e)) s = exec i s := by
  cases e with
  | transaction td v => exact takeEvent_ok h s
  | command v =>
    cases hc : decodeCommand v with
    | error r => simp [decode, hc, Except.map] at h
    | ok c =>
      obtain rfl : c.instr = i := by simpa [decode, hc, Except.map] using h
      exact (takeEvent_ok (decode_wrCmd v) s).trans (exec_wrCmd_of_ok hc s)

/-- Settles O6: a step takes the next event (`step_cons`), which runs what it decodes to or is an access error. -/
theorem stepRunsTheDecodedInstruction : Obligations.StepRunsTheDecodedInstruction := by
  intro s e rest hinputs
  rw [step_cons hinputs]
  constructor
  · intro i hi
    exact takeEvent_ofEncoded hi _
  · rintro td v r rfl hr
    exact takeEvent_illegal (tdLegal_of_decode_error hr) v _

end Sys2Proof.Machine
end

section
/-! PROOFS. The accesses of 20_memory.md: what a legal read returns and leaves (R62, R69), what a legal write leaves (10_state.md R43),
that a read sees the write before it (R70), and the sizes that R63 allows a host. -/

namespace Sys2Proof.Machine

open Sys2Proof.Laws

/-! ## Reads -/

/-- What a legal read can do: it returns the register of its offset, or while busy some value, or it draws. -/
theorem Effect.legal_read {s t : State} {td : Td} {v : Word} (h : Effect s (.bus ⟨td, v⟩) t) (hlegal : tdLegal td = true)
    (hread : tdWe td = false) :
    (∃ w, t = s.returns w ∧ (s.status.busy = false → w = s.window (tdOff td))) ∨
      (s.status.busy = true ∧ t = s.returnsDraw) := by
  cases h with
  | read _ _ _ _ w hw => exact .inl ⟨w, rfl, hw⟩
  | draw i _ hbusy => exact .inr ⟨hbusy, rfl⟩
  | access _ _ hl => simp [hlegal] at hl
  | refusedWrite _ _ _ _ hw => simp [hread] at hw
  | illegal | nop | init | compress | zeroize | wrStatus | wrCtrl | wrH | wrM | ignored => simp at hread

/-- Settles O21: while idle a legal read draws no value, so it returns the window's. -/
theorem legalReadReturnsTheMappedRegister : Obligations.LegalReadReturnsTheMappedRegister := by
  intro td v s hlegal hread hidle
  refine takeEvent_of_effect fun t ht => ?_
  rcases ht.legal_read hlegal hread with ⟨w, rfl, hw⟩ | ⟨hbusy, -⟩
  · rw [hw hidle, State.returns]
  · simp [hidle] at hbusy

/-- Settles O22: either way a read ends (`Effect.legal_read`), it changes the port and the count of draws alone. -/
theorem legalReadsChangeNoRegister : Obligations.LegalReadsChangeNoRegister := by
  intro td v s hlegal hread
  obtain ⟨t, ht, heffect⟩ := takeEvent_effect (.bus ⟨td, v⟩) s
  rcases heffect.legal_read hlegal hread with ⟨w, rfl, -⟩ | ⟨-, rfl⟩
  · exact ⟨w, s.draws, ht⟩
  · exact ⟨Config.draw s.draws, s.draws + 1, ht⟩

/-! ## Writes -/

/-- The window at an offset depends on the register that the map puts there alone (R62). -/
theorem State.window_congr {s t : State} {off : Offset} (hstatus : off = 0x04#8 → t.status = s.status)
    (hctrl : off = 0x08#8 → t.ctrl = s.ctrl)
    (hh : off &&& 0xE3#8 = 0x20#8 → t.readH (indexOfH off) = s.readH (indexOfH off))
    (hm : off &&& 0xC3#8 = 0x40#8 → t.readM (indexOfM off) = s.readM (indexOfM off)) : t.window off = s.window off := by
  unfold State.window
  split_ifs with h4 h8 hC hH hM
  · rw [hstatus h4]
  · rw [hctrl h8]
  · rfl
  · exact hh hH
  · exact hm hM
  · rfl

/-- An offset of H or of M is that of the register with its index. -/
theorem offset_of_index : ∀ off : Offset, (off &&& 0xE3#8 = 0x20#8 → off = offsetOfH (indexOfH off)) ∧
    (off &&& 0xC3#8 = 0x40#8 → off = offsetOfM (indexOfM off)) := by decide

/-- A write of H[i] leaves H's other words. -/
theorem readH_set_of_offset_ne {s t : State} {i : Fin 8} {v : Word} {off : Offset} (ht : t.h = s.h.set i v)
    (hne : off ≠ offsetOfH i) (hoff : off &&& 0xE3#8 = 0x20#8) : t.readH (indexOfH off) = s.readH (indexOfH off) := by
  have hindex : i ≠ indexOfH off := fun h => hne (h ▸ (offset_of_index off).1 hoff)
  rw [State.readH, State.readH, ht]
  exact Vector.getElem_set_ne i.isLt (indexOfH off).isLt (Fin.val_ne_of_ne hindex)

/-- A write of M[j] leaves M's other words. -/
theorem readM_set_of_offset_ne {s t : State} {j : Fin 16} {v : Word} {off : Offset} (ht : t.m = s.m.set j v)
    (hne : off ≠ offsetOfM j) (hoff : off &&& 0xC3#8 = 0x40#8) : t.readM (indexOfM off) = s.readM (indexOfM off) := by
  have hindex : j ≠ indexOfM off := fun h => hne (h ▸ (offset_of_index off).2 hoff)
  rw [State.readM, State.readM, ht]
  exact Vector.getElem_set_ne j.isLt (indexOfM off).isLt (Fin.val_ne_of_ne hindex)

/-- A legal write outside CMD, while idle, changes the window at its own offset alone, and draws no value. -/
theorem Effect.legal_write {s t : State} {td : Td} {v : Word} (h : Effect s (.bus ⟨td, v⟩) t) (hlegal : tdLegal td = true)
    (hwrite : tdWe td = true) (hcmd : tdOff td ≠ 0x00#8) (hidle : s.status.busy = false) :
    t.draws = s.draws ∧ ∀ off, off ≠ tdOff td → t.window off = s.window off := by
  cases h with
  | wrStatus =>
    simp only [tdOff_writeTd]
    exact ⟨rfl, fun off hoff => State.window_congr (fun h => absurd h hoff) (fun _ => rfl) (fun _ => rfl) (fun _ => rfl)⟩
  | wrCtrl =>
    simp only [tdOff_writeTd]
    exact ⟨rfl, fun off hoff => State.window_congr (fun _ => rfl) (fun h => absurd h hoff) (fun _ => rfl) (fun _ => rfl)⟩
  | wrH i =>
    simp only [tdOff_writeTd]
    exact ⟨rfl, fun off hoff => State.window_congr (fun _ => rfl) (fun _ => rfl) (readH_set_of_offset_ne rfl hoff) (fun _ => rfl)⟩
  | wrM j =>
    simp only [tdOff_writeTd]
    exact ⟨rfl, fun off hoff => State.window_congr (fun _ => rfl) (fun _ => rfl) (fun _ => rfl) (readM_set_of_offset_ne rfl hoff)⟩
  | ignored => exact ⟨rfl, fun _ _ => rfl⟩
  | access _ _ hl => simp [hlegal] at hl
  | refusedWrite _ _ hbusy => simp [hidle] at hbusy
  | read _ _ _ hw => simp [hwrite] at hw
  | draw => simp at hwrite
  | illegal | nop | init | compress | zeroize => simp at hcmd

/-- Settles O23, from `Effect.legal_write`; no event touches the events to come. -/
theorem legalWriteChangesOneOffset : Obligations.LegalWriteChangesOneOffset := by
  intro td v s hlegal hwrite hcmd hidle
  obtain ⟨t, ht, heffect⟩ := takeEvent_effect (.bus ⟨td, v⟩) s
  obtain ⟨hdraws, hwindow⟩ := heffect.legal_write hlegal hwrite hcmd hidle
  exact ⟨t, ht, heffect.inputs, hdraws, fun off _ => hwindow off⟩

/-! ## A read after a write -/

/-- A read of CTRL returns bits 1:0 of the word written (10_state.md R39). -/
theorem word_ctrlOfWord (v : Word) : (ctrlOfWord v).word = v &&& 3#32 := by
  apply BitVec.eq_of_getLsbD_eq
  intro k hk
  rw [Ctrl.getLsbD_word, BitVec.getLsbD_and]
  match k with
  | 0 | 1 => simp [ctrlOfWord]
  | k + 2 =>
    have hhigh : ∀ n < 30, (3#32).getLsbD (n + 2) = false := by decide
    simp [hhigh k (by omega)]

/-- The words of a vector after a write of one. -/
theorem getElem_set_fin {n : Nat} (x : Vector Word n) (i k : Fin n) (v : Word) :
    (x.set i v)[k] = if k = i then v else x[k] := by
  simp [Vector.getElem_set, Fin.ext_iff, eq_comm]

/-- Settles O24: the write is the model's of an idle state, and the read returns the word of the vector it left. -/
theorem readAfterWriteSeesTheWrite : Obligations.ReadAfterWriteSeesTheWrite := by
  intro v s t hidle
  refine ⟨fun i k hwrite => ?_, fun j k hwrite => ?_, fun hwrite => ?_⟩
  · rw [exec_wrH, hidle] at hwrite
    cases hwrite
    rw [← getElem_set_fin, exec_rdH]
    simp [hidle, State.returns]
  · rw [exec_wrM, hidle] at hwrite
    cases hwrite
    rw [← getElem_set_fin, exec_rdM]
    rfl
  · rw [exec_wrCtrl] at hwrite
    cases hwrite
    rw [← word_ctrlOfWord, exec_rdCtrl]
    rfl

/-! ## The host's accesses -/

/-- An access of fewer than 4 bytes does not enable all four lanes (log entry 6). -/
theorem byteEnables_narrow (addr : Nat) {n : Nat} (hn : n < 4) : byteEnables addr n ≠ 0b1111#4 := by
  have hlanes : ∀ n < 4, ∀ k < 4, BitVec.ofNat 4 ((2 ^ n - 1) <<< k) ≠ 0b1111#4 := by decide
  rw [byteEnables, if_neg (Nat.ne_of_lt hn)]
  exact hlanes n hn _ (Nat.mod_lt _ (by decide))

/-- What the port is given of an access of any size but 4 is an access error (R64). -/
theorem takeEvent_portAccess_of_ne_four (write : Bool) (addr : Nat) {n : Nat} (hn : n ≠ 4) (v : Word) (s : State) :
    takeEvent (portAccess write addr n v) s = .next (s.raise .access write) := by
  rw [portAccess]
  split_ifs with hwide
  · exact takeEvent_wide write s
  · obtain ⟨hbe, hwe, -⟩ := makeTd_fields (byteEnables addr n) write (windowOffset addr)
    have hillegal : tdLegal (makeTd (byteEnables addr n) write (windowOffset addr)) = false :=
      (tdLegal_eq_false_iff _).mpr (.inr (by rw [hbe]; exact byteEnables_narrow addr (by omega)))
    rw [takeEvent_illegal hillegal, hwe]

/-- Settles O26: an access is delivered if it starts in the window (`inWindow_iff`), and its size decides the rest. -/
theorem onlyFourByteAccessesAreLegal : Obligations.OnlyFourByteAccessesAreLegal := by
  intro write addr n v s
  refine ⟨fun hlow hhigh hsize => ?_, fun hout => ?_, fun off => memAccess_word write off v⟩
  · exact ⟨_, if_pos ((inWindow_iff addr).mpr ⟨hlow, hhigh⟩), takeEvent_portAccess_of_ne_four write addr hsize v s⟩
  · have hnot : ¬ inWindow addr = true := by
      rw [inWindow_iff]
      omega
    exact if_neg hnot

end Sys2Proof.Machine
end

section
/-! PROOFS. What every step keeps: that BUSY and DONE are apart, that it answers a next state (60_exceptions.md R250), who writes H
and M (10_state.md R31, R34), and that a transaction within the hazard rules raises nothing (70_reset_and_hazards.md R285, R286). -/

namespace Sys2Proof.Machine

open Sys2Proof.Laws

/-! ## BUSY and DONE -/

/-- BUSY rises in an acceptance, which clears DONE, and DONE rises in a completion, which clears BUSY. -/
theorem StatusRule.busy_done_apart {σ τ : Status} {e : Event} (h : StatusRule σ e τ)
    (hapart : ¬ (σ.busy = true ∧ σ.done = true)) : ¬ (τ.busy = true ∧ τ.done = true) := by
  rintro ⟨hbusy, hdone⟩
  rcases h.busy.mp hbusy with haccepts | ⟨hwasBusy, hengine, -⟩
  · rcases h.done.mp hdone with ⟨hwasBusy, -⟩ | ⟨-, -, hnot, -⟩
    · simp [haccepts.1] at hwasBusy
    · exact hnot haccepts
  · rcases h.done.mp hdone with ⟨-, he⟩ | ⟨hwasDone, -⟩
    · exact hengine he
    · exact hapart ⟨hwasBusy, hwasDone⟩

/-- Settles O48: every step follows the columns of R38 (`Effect.statusRule`), and they keep the two bits apart. -/
theorem stepKeepsBusyAndDoneApart : Obligations.StepKeepsBusyAndDoneApart := by
  intro s t hinv hstep
  exact (effect_of_step hstep).statusRule.busy_done_apart hinv

/-- Settles O47: both bits are 0 in the reset state. -/
theorem resetMeetsTheInvariant : Obligations.ResetMeetsTheInvariant := fun ⟨hbusy, _⟩ => Bool.false_ne_true hbusy

/-- Settles O31: every event answers a next state, whatever the state (`step_effect`). -/
theorem everyStepAnswersNext : Obligations.EveryStepAnswersNext := by
  intro s
  obtain ⟨t, ht, -⟩ := step_effect s
  exact ⟨t, ht⟩

/-! ## The writers of H and M -/

/-- The effects that change H (R31). -/
theorem Effect.changes_h {s t : State} {e : Event} (h : Effect s e t) (hne : t.h ≠ s.h) :
    (e = .engine ∧ s.status.busy = true) ∨ (∃ d, e = .reset d) ∨
    (s.status.busy = false ∧
      ((∃ (i : Fin 8) (v : Word), e = .bus ⟨writeTd (offsetOfH i), v⟩ ∧ t.h = s.h.set i v) ∨
       ∃ v ∈ [0x00000001#32, 0x00000011#32, 0x00000003#32], e = .bus ⟨0x1F00#13, v⟩)) := by
  cases h with
  | engine =>
    refine .inl ⟨rfl, ?_⟩
    by_contra hidle
    exact hne (by simp [hidle])
  | reset d => exact .inr (.inl ⟨d, rfl⟩)
  | init x hidle => exact .inr (.inr ⟨hidle, .inr ⟨_, by cases x <;> decide, rfl⟩⟩)
  | zeroize hidle => exact .inr (.inr ⟨hidle, .inr ⟨_, by decide, rfl⟩⟩)
  | wrH i v hidle => exact .inr (.inr ⟨hidle, .inl ⟨i, v, rfl, rfl⟩⟩)
  | _ => exact absurd rfl hne

/-- The effects that change M (R34). -/
theorem Effect.changes_m {s t : State} {e : Event} (h : Effect s e t) (hne : t.m ≠ s.m) :
    (∃ d, e = .reset d) ∨
    (s.status.busy = false ∧
      ((∃ (j : Fin 16) (v : Word), e = .bus ⟨writeTd (offsetOfM j), v⟩ ∧ t.m = s.m.set j v) ∨
       e = .bus ⟨0x1F00#13, 0x00000003#32⟩)) := by
  cases h with
  | engine => exact absurd (State.engineTurn_m s) hne
  | reset d => exact .inl ⟨d, rfl⟩
  | zeroize hidle => exact .inr ⟨hidle, .inr rfl⟩
  | wrM j v hidle => exact .inr ⟨hidle, .inl ⟨j, v, rfl, rfl⟩⟩
  | _ => exact absurd rfl hne

/-- Settles O49, from the effects that change H and those that change M. -/
theorem onlyNamedWritersChangeHashAndBlock : Obligations.OnlyNamedWritersChangeHashAndBlock :=
  fun _ _ hstep => ⟨(effect_of_step hstep).changes_h, (effect_of_step hstep).changes_m⟩

/-! ## The hazard rules -/

/-- The rules for host programs, one by one (R63, R285, R286; 30_encoding.md R94). -/
theorem hazardFree_iff (x : Transaction) (s : State) : hazardFree x s = true ↔
    tdLegal x.td = true ∧
    ¬ (s.status.busy = true ∧ tdWe x.td = true ∧ guardedOffset (tdOff x.td) = true) ∧
    ¬ (s.status.busy = true ∧ tdWe x.td = false ∧ tdOff x.td &&& 0xE3#8 = 0x20#8) ∧
    ¬ (tdWe x.td = true ∧ tdOff x.td = 0x00#8 ∧ (decodeCommand x.wdata).isOk = false) := by
  simp [hazardFree, and_assoc, or_assoc, -not_and, not_and_or]

/-- The offsets of H have the pattern of R97. -/
theorem offsetOfH_pattern : ∀ i : Fin 8, offsetOfH i &&& 0xE3#8 = 0x20#8 := by decide

/-- The only transaction that draws a free value is a read of H while busy (10_state.md R32). -/
theorem Effect.draws_of_bus {s t : State} {td : Td} {v : Word} (h : Effect s (.bus ⟨td, v⟩) t)
    (hdraw : ¬ (s.status.busy = true ∧ tdWe td = false ∧ tdOff td &&& 0xE3#8 = 0x20#8)) : t.draws = s.draws := by
  cases h with
  | draw i _ hbusy =>
    rw [tdWe_readTd, tdOff_readTd] at hdraw
    exact absurd ⟨hbusy, rfl, offsetOfH_pattern i⟩ hdraw
  | _ => rfl

/-- Settles O50: the rules exclude the causes of all three error bits (`no_error_bit_set`) and the read that draws. -/
theorem hazardFreeTransactionRaisesNothing : Obligations.HazardFreeTransactionRaisesNothing := by
  rintro ⟨td, v⟩ s hfree
  obtain ⟨hlegal, hrefused, hread, hcmd⟩ := (hazardFree_iff _ _).mp hfree
  obtain ⟨t, ht, heffect⟩ := takeEvent_effect (.bus ⟨td, v⟩) s
  obtain ⟨hacc, hbusy, hill⟩ := no_error_bit_set heffect hlegal hrefused hcmd
  exact ⟨t, ht, heffect.draws_of_bus hread, hill, hbusy, hacc⟩

/-! ## STATUS accesses -/

/-- Settles O17: the bits of a read from `rdStatus_returns_each_bit`; each W1C bit of a write by whether its bit in v is 1. -/
theorem statusReadAndWriteOneToClear : Obligations.StatusReadAndWriteOneToClear := by
  intro v s
  refine ⟨rdStatus_returns_each_bit s, ?_⟩
  have hclear : ∀ b c : Bool, (b && !c) = if c then false else b := by decide
  simp only [exec_wrStatus, State.acknowledge, Status.clear, State.acked, hclear]

end Sys2Proof.Machine
end

section
/-! PROOFS. An error bit blocks nothing (60_exceptions.md R250): what a step does to the rest of the state is a function of the rest of
the state. -/

namespace Sys2Proof.Machine

open Sys2Proof.Laws

/-- The state but for its error bits. -/
def State.sansErrors (s : State) : State :=
  { s with status := { s.status with errIll := false, errBusy := false, errAcc := false } }

/-- A kind of step that neither stops the machine nor looks at the error bits. -/
def IgnoresErrors (f : State → Host.Outcome State Fault Refusal) : Prop :=
  ∀ s, ∃ t u, f s = .next t ∧ f s.sansErrors = .next u ∧ u.sansErrors = t.sansErrors

theorem ignoresErrors_next {f : State → State} (hf : ∀ s, (f s.sansErrors).sansErrors = (f s).sansErrors) :
    IgnoresErrors fun s => .next (f s) := fun s => ⟨f s, f s.sansErrors, rfl, rfl, hf s⟩

/-- A choice by BUSY, which is no error bit. -/
theorem ignoresErrors_ite_busy {f g : State → State} (hf : ∀ s, (f s.sansErrors).sansErrors = (f s).sansErrors)
    (hg : ∀ s, (g s.sansErrors).sansErrors = (g s).sansErrors) :
    IgnoresErrors fun s => .next (if s.status.busy then f s else g s) := by
  refine ignoresErrors_next fun s => ?_
  have hbusy : s.sansErrors.status.busy = s.status.busy := rfl
  rw [hbusy]
  split_ifs
  · exact hf s
  · exact hg s

/-- A command and a write to H or M: refused while busy, else the effect g. -/
theorem ignoresErrors_refusedWhileBusy {g : State → State} (hg : ∀ s, (g s.sansErrors).sansErrors = (g s).sansErrors) :
    IgnoresErrors fun s => .next (if s.status.busy then s.raise .busy true else g s) :=
  ignoresErrors_ite_busy (fun _ => rfl) hg

theorem ignoresErrors_command (c : Command) : IgnoresErrors (exec c.instr) := by
  cases c with
  | nop => exact ignoresErrors_refusedWhileBusy (g := State.acked) fun _ => rfl
  | init x =>
    cases x with
    | sha256 => exact ignoresErrors_refusedWhileBusy (g := fun s => { s.acked with h := iv256 }) fun _ => rfl
    | sha224 => exact ignoresErrors_refusedWhileBusy (g := fun s => { s.acked with h := iv224 }) fun _ => rfl
  | compress => exact ignoresErrors_refusedWhileBusy (g := fun s => { s.acked with status := s.status.accepted }) fun _ => rfl
  | zeroize =>
    exact ignoresErrors_refusedWhileBusy
      (g := fun s => { s.acked with h := Vector.replicate 8 0, m := Vector.replicate 16 0 }) fun _ => rfl

theorem ignoresErrors_wrCmd (v : Word) : IgnoresErrors (exec (.wrCmd v)) := by
  cases hv : decodeCommand v with
  | ok c =>
    rw [funext (exec_wrCmd_of_ok hv)]
    exact ignoresErrors_command c
  | error r =>
    rw [funext (exec_wrCmd_of_error hv)]
    exact ignoresErrors_refusedWhileBusy fun _ => rfl

/-- Every instruction but the read of STATUS, whose value the error bits are part of. -/
theorem ignoresErrors_exec {i : Instr} (hi : i ≠ .rdStatus) : IgnoresErrors (exec i) := by
  cases i with
  | rdStatus => exact absurd rfl hi
  | nop => exact ignoresErrors_command .nop
  | initSha256 => exact ignoresErrors_command (.init .sha256)
  | initSha224 => exact ignoresErrors_command (.init .sha224)
  | compress => exact ignoresErrors_command .compress
  | zeroize => exact ignoresErrors_command .zeroize
  | wrCmd v => exact ignoresErrors_wrCmd v
  | wrH i v => exact ignoresErrors_refusedWhileBusy (g := fun s => { s.acked with h := s.h.set i v }) fun _ => rfl
  | wrM j v => exact ignoresErrors_refusedWhileBusy (g := fun s => { s.acked with m := s.m.set j v }) fun _ => rfl
  | rdH i => exact ignoresErrors_ite_busy (f := State.returnsDraw) (g := fun s => s.returns s.h[i]) (fun _ => rfl) fun _ => rfl
  | rdM j => exact ignoresErrors_next (f := fun s => s.returns s.m[j]) fun _ => rfl
  | wrStatus v => exact ignoresErrors_next (f := fun s => (s.acknowledge v).acked) fun _ => rfl
  | rdCtrl => exact ignoresErrors_next (f := fun s => s.returns s.ctrl.word) fun _ => rfl
  | wrCtrl v => exact ignoresErrors_next (f := fun s => { s.acked with ctrl := ctrlOfWord v }) fun _ => rfl
  | rdInfo => exact ignoresErrors_next (f := fun s => s.returns infoWord) fun _ => rfl
  | rdCmd | rdRsvdLo | rdRsvdHi => exact ignoresErrors_next (f := fun s => s.returns 0) fun _ => rfl
  | wrInfo | wrRsvdLo | wrRsvdHi => exact ignoresErrors_next (f := State.acked) fun _ => rfl

/-- The only descriptor that decodes to a read of STATUS. -/
theorem eq_readTd_of_decode_rdStatus {td : Td} {v : Word} (h : decodeTransaction td v = .ok .rdStatus) : td = readTd 0x04#8 := by
  have hdecoded := decodeTransaction_decoded td v
  rw [h] at hdecoded
  cases hdecoded with
  | rdStatus h => exact h

theorem ignoresErrors_takeEvent {e : Event} (he : ∀ v, e ≠ .bus ⟨readTd 0x04#8, v⟩) : IgnoresErrors (takeEvent e) := by
  cases e with
  | engine =>
    refine ignoresErrors_next (f := State.engineTurn) fun s => ?_
    have hbusy : s.sansErrors.status.busy = s.status.busy := rfl
    rw [State.engineTurn, State.engineTurn, hbusy]
    split_ifs <;> rfl
  | reset d => exact ignoresErrors_next fun s => by cases d <;> rfl
  | wide w => exact ignoresErrors_next fun s => rfl
  | bus x =>
    obtain ⟨td, v⟩ := x
    cases hd : decodeTransaction td v with
    | error r =>
      rw [funext (takeEvent_illegal (tdLegal_of_decode_error hd) v)]
      exact ignoresErrors_next fun s => rfl
    | ok i =>
      rw [funext (takeEvent_ok hd)]
      refine ignoresErrors_exec ?_
      rintro rfl
      exact he v (by rw [eq_readTd_of_decode_rdStatus hd])

/-- Two states that differ in the error bits alone step alike. -/
theorem IgnoresErrors.same {f : State → Host.Outcome State Fault Refusal} (hf : IgnoresErrors f) {s s' t u : State}
    (ht : f s = .next t) (hu : f s' = .next u) (hs : s'.sansErrors = s.sansErrors) : u.sansErrors = t.sansErrors := by
  obtain ⟨t1, w1, ht1, hw1, h1⟩ := hf s
  obtain ⟨u2, w2, hu2, hw2, h2⟩ := hf s'
  cases ht.symm.trans ht1
  cases hu.symm.trans hu2
  rw [hs] at hw2
  cases hw1.symm.trans hw2
  exact h2.symm.trans h1

/-- A step by its event (`fetch`). -/
theorem step_eq_takeEvent (s : State) : step s = takeEvent (fetch s).1 { s with inputs := s.inputs.tail } := by
  rw [step, fetch_snd]

/-- The next event is one of the events to come, whatever STATUS is. -/
theorem fetch_with_status (s : State) (σ : Status) : (fetch { s with status := σ }).1 = (fetch s).1 := by
  rcases s with ⟨_, _, _, _, _, _ | ⟨e, rest⟩, _⟩ <;> rfl

/-- What states that differ in the error bits alone agree on. -/
theorem State.agree_of_sansErrors_eq {t u : State} (h : u.sansErrors = t.sansErrors) :
    u.h = t.h ∧ u.m = t.m ∧ u.ctrl = t.ctrl ∧ u.inputs = t.inputs ∧ u.draws = t.draws ∧
      u.status.busy = t.status.busy ∧ u.status.done = t.status.done ∧ u.response = t.response := by
  simp only [sansErrors, State.mk.injEq, Status.mk.injEq] at h
  obtain ⟨hh, hm, ⟨hbusy, hdone, -⟩, hctrl, hresponse, hinputs, hdraws⟩ := h
  exact ⟨hh, hm, hctrl, hinputs, hdraws, hbusy, hdone, hresponse⟩

/-- Settles O32: a read of STATUS changes the port alone, and any other step ignores the error bits. -/
theorem errorBitsBlockNothing : Obligations.ErrorBitsBlockNothing := by
  intro s t u a b c ht hu
  rw [step_eq_takeEvent] at ht hu
  rw [fetch_with_status] at hu
  by_cases hread : ∃ v, (fetch s).1 = .bus ⟨readTd 0x04#8, v⟩
  · obtain ⟨v, hv⟩ := hread
    rw [hv, takeEvent_ok (decode_rdStatus v), exec_rdStatus] at ht hu
    cases ht
    cases hu
    exact ⟨rfl, rfl, rfl, rfl, rfl, rfl, rfl, .inr ⟨v, hv⟩⟩
  · have hsame := (ignoresErrors_takeEvent (not_exists.mp hread)).same ht hu rfl
    obtain ⟨hh, hm, hctrl, hinputs, hdraws, hbusy, hdone, hresponse⟩ := State.agree_of_sansErrors_eq hsame
    exact ⟨hh, hm, hctrl, hinputs, hdraws, hbusy, hdone, .inl hresponse⟩

end Sys2Proof.Machine
end

section
/-! PROOFS. A compression in flight and its completion (41_compression.md R175): what the host can do meanwhile (10_state.md R42), that
it completes (70_reset_and_hazards.md R290), what a polling host reads (20_memory.md R72), and the two orders of a completion and a
transaction (60_exceptions.md R256). -/

namespace Sys2Proof.Machine

open Sys2Proof.Laws

/-! ## The completion -/

/-- A turn of the engine while nothing is in flight changes the port alone (log entry 1). -/
theorem takeEvent_engine_idle {s : State} (hidle : s.status.busy = false) :
    takeEvent .engine s = .next { s with response := .quiet } := by
  show Host.Outcome.next s.engineTurn = _
  rw [State.engineTurn, if_neg (by simp [hidle])]

/-- Settles O40: busy, the turn is `takeEvent_engine_busy`, which leaves the engine idle; a host event meanwhile is `busy_host_event`,
and after a reset the engine is idle. -/
theorem completionStepOfTheEngine : Obligations.CompletionStepOfTheEngine := by
  intro s rest hinputs
  rw [step_cons hinputs]
  refine ⟨fun hbusy => ⟨takeEvent_engine_busy hbusy, ?_, ?_, takeEvent_engine_idle rfl, ?_⟩,
    fun hidle => takeEvent_engine_idle hidle⟩
  · intro hie
    simp [State.irq, hie]
  · intro e u he hu
    obtain ⟨hh, hm, hstill, -⟩ := busy_host_event hbusy he hu
    exact ⟨hh, hm, hstill⟩
  · intro d
    exact ⟨_, _, rfl, takeEvent_engine_idle (by simp), State.resetDuring_h s d, by simp⟩

/-- A run of host events while busy, then a turn of the engine: the completion computes from H and M as they were at its start. -/
theorem stateAfter_completion {s : State} {host rest : List Event} (hbusy : s.status.busy = true)
    (hhost : ∀ e ∈ host, e.fromHost = true) (hinputs : s.inputs = host ++ rest)
    (hengine : ∀ t : State, t.inputs = rest → (fetch t).1 = .engine) :
    ∃ t u, stateAfter host.length s = some t ∧ t.h = s.h ∧ t.m = s.m ∧ t.status.busy = true ∧
      stateAfter (host.length + 1) s = some u ∧ u.h = compress s.h s.m ∧ u.m = s.m ∧
      u.status.busy = false ∧ u.status.done = true ∧ u.inputs = rest.tail := by
  obtain ⟨t, ht, hh, hm, hstill, hrest⟩ := busy_host_run hbusy hhost hinputs
  have hdone := stateAfter_succ (step_completes hstill (hengine t hrest)) 0
  rw [stateAfter_zero, ← stateAfter_add ht] at hdone
  exact ⟨t, _, ht, hh, hm, hstill, hdone, by rw [hh, hm], hm, rfl, rfl, by rw [hrest]⟩

/-- Settles O41: the run of the host, with the engine's turn next. -/
theorem compressionSurvivesHostInterference : Obligations.CompressionSurvivesHostInterference := by
  intro s host rest hbusy hhost hinputs
  exact stateAfter_completion hbusy hhost hinputs fun t ht => by rw [fetch, ht]

/-- Settles O42: after the last pending event no event is left, and the engine has the turn (log entry 2). -/
theorem compressionCompletesWhenInputsRunOut : Obligations.CompressionCompletesWhenInputsRunOut := by
  intro s hbusy hhost
  obtain ⟨-, u, -, -, -, -, hu, hh, hm, hidle, hdone, -⟩ :=
    stateAfter_completion hbusy hhost (List.append_nil _).symm fun t ht => by rw [fetch, ht]
  exact ⟨u, hu, hh, hm, hidle, hdone⟩

/-! ## Polling -/

/-- A busy state's polls, its completion and one more poll: what the port shows, and the state after. -/
theorem trace_wait {s : State} {n : Nat} {rest : List Event} (hbusy : s.status.busy = true)
    (hinputs : s.inputs = List.replicate n readStatus ++ .engine :: readStatus :: rest) :
    trace (n + 2) s = some (List.replicate n (.data s.status.word) ++ [.quiet, .data s.status.completed.word],
      { s with h := compress s.h s.m, status := s.status.completed, response := .data s.status.completed.word,
               inputs := rest }) := by
  obtain ⟨t, ht, heq⟩ := poll_run n hinputs
  have hcomplete := step_completes (s := t) (by rw [heq]; exact hbusy) (by rw [fetch, heq])
  rw [trace_add ht, trace_succ hcomplete, trace_succ (step_readStatus (rest := rest) (by rw [heq]; rfl)), trace, heq]
  rfl

/-- Settles O43: each poll of `trace_wait` returns the STATUS word of its time, whose bits 0 and 1 are BUSY and DONE. -/
theorem pollingSeesBusyThenTheResult : Obligations.PollingSeesBusyThenTheResult := by
  intro s polls rest hbusy hinputs
  refine ⟨_, _, _, _, trace_wait hbusy hinputs, List.length_replicate, ?_, Status.getLsbD_word _ 0, Status.getLsbD_word _ 1,
    rfl, rfl, rfl⟩
  intro r hr
  exact ⟨_, List.eq_of_mem_replicate hr, (Status.getLsbD_word _ 0).trans hbusy⟩

/-! ## A completion and a transaction in one cycle -/

/-- Settles O34: a W1C write before the completion leaves BUSY, so the completion sets DONE; a write of M is refused before the
completion and idle after it. -/
theorem setWinsOverClearInTheSameCycle : Obligations.SetWinsOverClearInTheSameCycle := by
  intro s v hbusy
  refine ⟨?_, fun j => ?_, fun j => ?_⟩
  · exact ⟨_, _, (takeEvent_ok (decode_wrStatus v) s).trans (exec_wrStatus v s), takeEvent_engine_busy hbusy, rfl, rfl, rfl⟩
  · have hrefused : exec (.wrM j v) s = .next (s.raise .busy true) := by rw [exec_wrM, if_pos hbusy]
    exact ⟨_, _, hrefused, takeEvent_engine_busy hbusy, rfl, rfl⟩
  · exact ⟨_, _, takeEvent_engine_busy hbusy, exec_wrM j v _, rfl, rfl⟩

end Sys2Proof.Machine
end

section
/-! PROOFS. The bytes of 43_padding_and_digest.md: where the length stands in the last block (R222), and the byte order of blocks and
digests (R220, R227, R228). -/

namespace Sys2Proof.Machine

/-! ## Words and their bytes -/

/-- Byte k of a word, most significant first (00_scope.md R18). -/
theorem getElem?_bytesBE (w : Word) {k : Nat} (hk : k < 4) : (bytesBE w)[k]? = some (w.extractLsb' (24 - 8 * k) 8) := by
  match k with
  | 0 | 1 | 2 | 3 => rfl

/-- The bytes of the words of a list, each at four times its index. -/
theorem getElem?_flatMap_bytesBE (ws : List Word) {i k : Nat} (hk : k < 4) :
    (ws.flatMap bytesBE)[4 * i + k]? = ws[i]?.map (·.extractLsb' (24 - 8 * k) 8) := by
  induction ws generalizing i with
  | nil => rfl
  | cons w ws ih =>
    rw [List.flatMap_cons]
    cases i with
    | zero =>
      rw [Nat.mul_zero, Nat.zero_add, List.getElem?_append_left (by rw [bytesBE_length]; exact hk), getElem?_bytesBE w hk]
      rfl
    | succ i =>
      have hskip : 4 * (i + 1) + k - 4 = 4 * i + k := by omega
      rw [List.getElem?_append_right (by rw [bytesBE_length]; omega), bytesBE_length, hskip, ih, List.getElem?_cons_succ]

/-- The bytes of the leading words are the leading bytes. -/
theorem flatMap_bytesBE_take (ws : List Word) (n : Nat) : (ws.take n).flatMap bytesBE = (ws.flatMap bytesBE).take (4 * n) := by
  induction ws generalizing n with
  | nil => simp
  | cons w ws ih =>
    cases n with
    | zero => rfl
    | succ n =>
      rw [List.take_succ_cons, List.flatMap_cons, List.flatMap_cons, ih, Nat.mul_succ, Nat.add_comm (4 * n), ← bytesBE_length w,
        List.take_length_add_append, bytesBE_length]

/-! ## Blocks and digests -/

theorem getElem?_messageBlocks (msg : List Byte) {n : Nat} (hn : n < blockCount msg.length) :
    (messageBlocks msg)[n]? = some (parseBlock (((pad msg).drop (64 * n)).take 64)) := by
  rw [messageBlocks, List.getElem?_map, byteBlocks_get _ _ _ hn]
  rfl

/-- Byte 4j + k of a block is byte k of word j. -/
theorem extract_blockWord (b : List Byte) (j : Nat) {k : Nat} (hk : k < 4) :
    (blockWord b j).extractLsb' (24 - 8 * k) 8 = b.getD (4 * j + k) 0 := by
  rw [blockWord, be32_byte _ _ _ _ k hk]
  match k with
  | 0 | 1 | 2 | 3 => rfl

/-- All eight words make the digest of SHA-256. -/
theorem serializeDigest_sha256 (h : Vector Word 8) : serializeDigest .sha256 h = h.toList.flatMap bytesBE := by
  rw [serializeDigest, digestWords, List.take_of_length_le (by simp)]

/-- Settles O53: blocks and words by their indices; SHA-224 leaves out the last word, which is the last four bytes. -/
theorem bytesAreBigEndianInWords : Obligations.BytesAreBigEndianInWords := by
  refine ⟨fun msg n => getElem?_messageBlocks msg, fun b j k hk => ?_, fun h i k hk => ?_, fun h => ⟨?_, ?_, ?_⟩⟩
  · rw [getElem_parseBlock, extract_blockWord b j hk]
  · rw [serializeDigest_sha256, getElem?_flatMap_bytesBE _ hk]
    simp
  · exact serializeDigest_length .sha256 h
  · rw [serializeDigest_sha256]
    exact flatMap_bytesBE_take h.toList 7
  · exact serializeDigest_length .sha224 h

/-! ## The length field -/

/-- The last eight bytes of a padded message are its length (R221). -/
theorem pad_drop_length_sub (msg : List Byte) : (pad msg).drop ((pad msg).length - 8) = be64 (8 * msg.length) := by
  rw [pad, List.length_append, be64_length, Nat.add_sub_cancel, List.drop_left]

/-- The blocks before the last, and the last. -/
theorem messageBlocks_eq_append_last (msg : List Byte) : ∃ front : List (Vector Word 16),
    messageBlocks msg = front ++ [parseBlock ((pad msg).drop (64 * ((msg.length + 8) / 64)))] := by
  refine ⟨(byteBlocks ((msg.length + 8) / 64) (pad msg)).map parseBlock, ?_⟩
  have hlast : ((pad msg).drop (64 * ((msg.length + 8) / 64))).length = 64 := by
    rw [List.length_drop, pad_length, blockCount]
    omega
  rw [messageBlocks, blockCount, byteBlocks_add, List.map_append]
  simp [byteBlocks, Config.blockBytes, List.take_of_length_le hlast.le]

/-- The last eight bytes of the last block are the length. -/
theorem getD_last_block (msg : List Byte) (k : Nat) :
    ((pad msg).drop (64 * ((msg.length + 8) / 64))).getD (56 + k) 0 = (be64 (8 * msg.length)).getD k 0 := by
  have hindex : 64 * ((msg.length + 8) / 64) + (56 + k) = (pad msg).length - 8 + k := by
    rw [pad_length, blockCount]
    omega
  rw [← pad_drop_length_sub, List.getD_eq_getElem?_getD, List.getD_eq_getElem?_getD, List.getElem?_drop, List.getElem?_drop, hindex]

/-- The two halves of BE64, most significant first. -/
theorem be64_words (x : Nat) :
    be32 ((be64 x).getD 0 0) ((be64 x).getD 1 0) ((be64 x).getD 2 0) ((be64 x).getD 3 0) = BitVec.ofNat 32 (x / 2 ^ 32) ∧
    be32 ((be64 x).getD 4 0) ((be64 x).getD 5 0) ((be64 x).getD 6 0) ((be64 x).getD 7 0) = BitVec.ofNat 32 x := by
  constructor
  · refine (be32_bytesBE ((BitVec.ofNat 64 x).extractLsb' 32 32)).trans (BitVec.eq_of_toNat_eq ?_)
    simp only [BitVec.extractLsb'_toNat, BitVec.toNat_ofNat, Nat.shiftRight_eq_div_pow]
    omega
  · refine (be32_bytesBE ((BitVec.ofNat 64 x).extractLsb' 0 32)).trans (BitVec.eq_of_toNat_eq ?_)
    simp only [BitVec.extractLsb'_toNat, BitVec.toNat_ofNat, Nat.shiftRight_eq_div_pow]
    omega

/-- Settles O52: words 14 and 15 of the last block have its bytes 56 to 63 (`getD_last_block`). -/
theorem lastBlockEndsWithTheBitLength : Obligations.LastBlockEndsWithTheBitLength := by
  intro msg
  obtain ⟨front, hfront⟩ := messageBlocks_eq_append_last msg
  obtain ⟨hhigh, hlow⟩ := be64_words (8 * msg.length)
  refine ⟨front, _, pad_drop_length_sub msg, hfront, ?_, ?_⟩
  · rw [← hhigh]
    simp only [← getD_last_block]
    rfl
  · rw [← hlow]
    simp only [← getD_last_block]
    rfl

end Sys2Proof.Machine
end

section
/-! PROOFS. The host's procedure for one hash (43_padding_and_digest.md R225) as the events it presents: what a block's events leave,
then all the blocks', then the reads of the digest. -/

namespace Sys2Proof.Machine

open Sys2Proof.Laws

/-! ## The blocks -/

/-- INIT, run by an idle engine, whichever variant it names. -/
theorem step_init {v : Variant} {s : State} {rest : List Event} (hidle : s.status.busy = false)
    (hinputs : s.inputs = writeCommand (.init v) :: rest) :
    step s = .next { s with h := initialHash v, response := .ack, inputs := rest } := by
  rw [step_command hinputs]
  cases v with
  | sha256 => rw [Command.instr, exec_initSha256, if_neg (by simp [hidle])]; rfl
  | sha224 => rw [Command.instr, exec_initSha224, if_neg (by simp [hidle])]; rfl

/-- The acceptance of COMPRESS by an idle engine. -/
theorem step_compress {s : State} {rest : List Event} (hidle : s.status.busy = false)
    (hinputs : s.inputs = writeCommand .compress :: rest) :
    step s = .next { s with status := s.status.accepted, response := .ack, inputs := rest } := by
  rw [step_command hinputs, Command.instr, exec_compress, if_neg (by simp [hidle])]
  rfl

/-- One block: LDBLK loads it into M, COMPRESS starts from H and M, and WAIT ends after the completion. -/
theorem blockEvents_run {b : Vector Word 16} {n : Nat} {s : State} {rest : List Event} (hidle : s.status.busy = false)
    (hinputs : s.inputs = blockEvents b n ++ rest) :
    ∃ rs t, trace (blockEvents b n).length s = some (rs, t) ∧
      t = { s with h := compress s.h b, m := b, status := s.status.accepted.completed, response := t.response, inputs := rest } := by
  have hlength : (blockEvents b n).length = (List.finRange 16).length + (n + 2 + 1) := by simp [blockEvents, loadBlock]
  obtain ⟨rs, t, hload, ht⟩ := blockWords_run b (List.finRange 16) (s := s)
    (rest := writeCommand .compress :: (List.replicate n readStatus ++ .engine :: readStatus :: rest)) hidle
    (by rw [hinputs]; simp [blockEvents, loadBlock])
  rw [foldl_set_all] at ht
  have haccept := step_compress (s := t) (by rw [ht]; exact hidle) (by rw [ht])
  rw [hlength, trace_add hload, trace_succ haccept, trace_wait rfl rfl]
  exact ⟨_, _, rfl, by rw [ht]⟩

/-- What the events of some blocks leave of the engine's state: H is the chain, and no error bit has changed. -/
structure Hashed (blocks : List (Vector Word 16)) (s t : State) : Prop where
  h       : t.h = chain s.h blocks
  busy    : t.status.busy = false
  done    : t.status.done = (s.status.done || !blocks.isEmpty)
  errIll  : t.status.errIll = s.status.errIll
  errBusy : t.status.errBusy = s.status.errBusy
  errAcc  : t.status.errAcc = s.status.errAcc

/-- A block, then the others. -/
theorem Hashed.cons {b : Vector Word 16} {blocks : List (Vector Word 16)} {s t u : State} (h : Hashed blocks t u)
    (hh : t.h = compress s.h b) (hstatus : t.status = s.status.accepted.completed) : Hashed (b :: blocks) s u where
  h       := by rw [h.h, hh]; rfl
  busy    := h.busy
  done    := by simp [h.done, hstatus]
  errIll  := by rw [h.errIll, hstatus]; rfl
  errBusy := by rw [h.errBusy, hstatus]; rfl
  errAcc  := by rw [h.errAcc, hstatus]; rfl

/-- All the blocks, each with the polls of its WAIT. -/
theorem blocksEvents_run (blocks : List (Vector Word 16)) : ∀ {polls : List Nat} {s : State} {rest : List Event},
    s.status.busy = false → polls.length = blocks.length → s.inputs = blocksEvents blocks polls ++ rest →
    ∃ rs t, trace (blocksEvents blocks polls).length s = some (rs, t) ∧ Hashed blocks s t ∧ t.inputs = rest := by
  induction blocks with
  | nil =>
    intro polls s rest hidle _ hinputs
    rw [blocksEvents_nil] at hinputs ⊢
    exact ⟨[], s, rfl, ⟨rfl, hidle, by simp, rfl, rfl, rfl⟩, hinputs⟩
  | cons b blocks ih =>
    intro polls s rest hidle hpolls hinputs
    cases polls with
    | nil => cases hpolls
    | cons n ns =>
      rw [blocksEvents_cons, List.append_assoc] at hinputs
      obtain ⟨rs, t, hblock, ht⟩ := blockEvents_run hidle hinputs
      obtain ⟨rs', u, hrest, hu, hinputs'⟩ :=
        ih (s := t) (rest := rest) (by rw [ht]; rfl) (Nat.succ.inj hpolls) (by rw [ht])
      refine ⟨rs ++ rs', u, ?_, hu.cons (by rw [ht]) (by rw [ht]), hinputs'⟩
      rw [blocksEvents_cons, List.length_append, trace_add hblock, hrest]
      rfl

/-! ## The digest -/

/-- The words that RDH reads are those of the digest (R227, R228). -/
theorem digest_words_eq (v : Variant) (h : Vector Word 8) :
    ((List.finRange 8).take (digestWords v)).map (fun i => h[i]) = h.toList.take (digestWords v) := by
  rw [vector8_toList]
  cases v <;> rfl

/-- RDH, while idle: the port shows the digest's words, in order, and no register changes. -/
theorem readDigest_run {v : Variant} {s : State} {rest : List Event} (hidle : s.status.busy = false)
    (hinputs : s.inputs = readDigest v ++ rest) :
    ∃ t, trace (readDigest v).length s = some ((s.h.toList.take (digestWords v)).map .data, t) ∧
      t.h = s.h ∧ t.status = s.status ∧ t.inputs = rest := by
  obtain ⟨t, hrun, ht⟩ := digest_run _ hidle hinputs
  rw [readDigest, List.length_map, hrun, digest_words_eq]
  exact ⟨t, rfl, by rw [ht], by rw [ht], by rw [ht]⟩

theorem messageBlocks_length (msg : List Byte) : (messageBlocks msg).length = blockCount msg.length := by
  rw [messageBlocks, List.length_map, byteBlocks_length]

/-- A message has a block, if only that of its padding. -/
theorem messageBlocks_isEmpty (msg : List Byte) : (messageBlocks msg).isEmpty = false := by
  rw [List.isEmpty_eq_false_iff_exists_mem]
  exact ⟨_, List.mem_of_getElem? (getElem?_messageBlocks msg (n := 0) (Nat.succ_pos _))⟩

/-- Settles O56: INIT (`step_init`), the blocks (`blocksEvents_run`), and the reads of H, which the engine answers with the words of
the chain. -/
theorem hostProcedureComputesTheDigest : Obligations.HostProcedureComputesTheDigest := by
  intro v msg polls s rest hidle _ hpolls hinputs
  rw [hashEvents, List.cons_append, List.append_assoc] at hinputs
  have hinit := step_init hidle hinputs
  obtain ⟨rs, t, hblocks, ht, hreads⟩ := blocksEvents_run (messageBlocks msg) (polls := polls) (rest := readDigest v ++ rest)
    (s := { s with h := initialHash v, response := .ack,
                   inputs := blocksEvents (messageBlocks msg) polls ++ (readDigest v ++ rest) })
    hidle (by rw [hpolls, messageBlocks_length]) rfl
  obtain ⟨u, hdigest, hh, hstatus, hrest⟩ := readDigest_run ht.busy hreads
  refine ⟨.ack :: rs, t.h.toList.take (digestWords v), u, ?_, ?_, ?_, hh.trans ht.h, hrest, ?_, ?_, ?_, ?_, ?_⟩
  · rw [hashEvents, List.length_cons, List.length_append, trace_succ hinit, trace_add hblocks, hdigest]
    rfl
  · rw [← digest_words_eq]
    cases v <;> rfl
  · rw [ht.h]
    rfl
  · rw [hstatus, ht.busy]
  · rw [hstatus, ht.done, messageBlocks_isEmpty, Bool.not_false, Bool.or_true]
  · rw [hstatus, ht.errIll]
  · rw [hstatus, ht.errBusy]
  · rw [hstatus, ht.errAcc]

end Sys2Proof.Machine
end

section
/-! PROOFS. The host's scripts (30_encoding.md R99, R100): what the pseudo-instructions present, the WAIT loop, the script of one hash
in every interleaving with the engine (43_padding_and_digest.md R225), a message in pieces, and the usage errors (R224, R226). -/

namespace Sys2Proof.Machine

/-! ## The pseudo-instructions -/

/-- Statements that each present one transaction present them in order. -/
theorem filterMap_event_map {α : Type} {st : α → Stmt} {ev : α → Event} (hevent : ∀ x, (st x).event = some (ev x))
    (xs : List α) : (xs.map st).filterMap Stmt.event = xs.map ev := by
  rw [List.filterMap_map, show Stmt.event ∘ st = some ∘ ev from funext hevent, List.filterMap_eq_map]

theorem events_ldblk (b : List Byte) : (Pseudo.ldblk b).expand.filterMap Stmt.event = loadBlock (parseBlock b) := by
  refine filterMap_event_map (fun j => ?_) _
  rw [event_wr, getElem_parseBlock]
  rfl

theorem events_rdh (v : Variant) : (Pseudo.rdh (digestWords v)).expand.filterMap Stmt.event = readDigest v :=
  filterMap_event_map (fun i => event_rd (.h i)) _

theorem events_command (c : Command) : (Pseudo.command c).expand.filterMap Stmt.event = [writeCommand c] :=
  filterMap_event_map (fun r => event_wr r (encodeCommand c)) [Reg.cmd]

theorem events_wait (l : Nat) : (Pseudo.wait l).expand.filterMap Stmt.event = [readStatus] := by
  rw [Pseudo.expand, List.filterMap_cons_none (event_label l)]
  simp [readStatus, Reg.offset]

theorem events_clrst : Pseudo.clrst.expand.filterMap Stmt.event = [.bus ⟨0x1F04#13, 0x0000001E#32⟩] := by
  refine (filterMap_event_map (fun r => event_wr r 0x0000001E#32) [Reg.status]).trans ?_
  rw [List.map_singleton, registerWrite_eq]
  rfl

/-! ## The WAIT loop -/

/-- The statement at the host's position begins what is left of its script. -/
theorem ScriptHost.drop_eq_of_lookup {p : ScriptHost} {n : Nat} {st : Stmt} (h : p.script[n]? = some st) :
    p.script.drop n = st :: p.script.drop (n + 1) := by
  obtain ⟨hn, rfl⟩ := List.getElem?_eq_some_iff.mp h
  exact List.drop_eq_getElem_cons hn

/-- A poll records the STATUS word and changes no register. -/
theorem hostTurn_poll {p : ScriptHost} (h : p.script[p.position]? = some (.rd .status)) (s : State) :
    hostTurn p s = ({ p with position := p.position + 1, reads := (.status, s.status.word) :: p.reads },
      .next { s with response := .data s.status.word }) :=
  hostTurn_rd (ScriptHost.drop_eq_of_lookup h) (step_readStatus rfl) rfl

/-- The branch of WAIT follows bit 0 of the STATUS word just read. -/
theorem branch_status_position (p : ScriptHost) (σ : Status) (l : Nat) :
    (ScriptHost.branch { p with reads := (.status, σ.word) :: p.reads } .status 0 l).position =
      if σ.busy then labelPosition p.script l else p.position + 1 := by
  have hbit : σ.word.getLsbD 0 = σ.busy := Status.getLsbD_word σ 0
  simp only [ScriptHost.branch, ScriptHost.lastRead, List.find?_cons, BEq.rfl, Option.map_some, Option.getD_some, hbit]
  split_ifs <;> rfl

/-- Settles O59: the expansions one by one; in the loop the poll is `hostTurn_poll`, and the branch reads what it recorded. -/
theorem scriptsPresentTheProcedure : Obligations.ScriptsPresentTheProcedure := by
  refine ⟨events_ldblk, events_rdh, events_command, events_wait, events_clrst, fun p s l hpoll hbranch => ?_⟩
  exact ⟨_, _, hostTurn_poll hpoll s, rfl, rfl, rfl, rfl, rfl,
    _, hostTurn_bnz (ScriptHost.drop_eq_of_lookup hbranch) _,
    branch_status_position { p with position := p.position + 1 } s.status l⟩

/-! ## The script of one hash -/

theorem lengthFits_iff (msg : List Byte) : lengthFits msg = true ↔ 8 * msg.length < 2 ^ 64 := decide_eq_true_iff

/-- A message of 2^64 bits or more has no script (R224). -/
theorem hashScript_overflow (v : Variant) {msg : List Byte} (hlong : 2 ^ 64 ≤ 8 * msg.length) :
    hashScript v msg = .error .overflow := by
  rw [hashScript, if_neg (by rw [lengthFits_iff]; omega)]

/-- The chain of the procedure's blocks of bytes is that of the message's blocks. -/
theorem chainAfter_message (v : Variant) (msg : List Byte) :
    chainAfter v (byteBlocks (blockCount msg.length) (pad msg)) = chain (initialHash v) (messageBlocks msg) := rfl

/-- What a run of the procedure returns, in any interleaving: the digest, with H the chain and the error bits as they were. -/
theorem runScript_returns_digest {v : Variant} {msg : List Byte} {s t : State} {turns : List Turn} {q : ScriptHost} {d : List Byte}
    (hidle : s.status.busy = false)
    (hrun : runScript turns (.start (procedureScript v (byteBlocks (blockCount msg.length) (pad msg)))) s = some (q, t))
    (hd : q.returned v = some d) :
    d = messageDigest v msg ∧ t.h = chain (initialHash v) (messageBlocks msg) ∧
      t.status.errIll = s.status.errIll ∧ t.status.errBusy = s.status.errBusy ∧ t.status.errAcc = s.status.errAcc := by
  have hend := (OnProcedure.begin v _ hidle).1.run hrun
  obtain ⟨hdigest, hh⟩ := hend.returned hd
  rw [chainAfter_message] at hh
  rw [hh] at hdigest
  exact ⟨hdigest, hh, hend.errIll, hend.errBusy, hend.errAcc⟩

/-- From an idle engine some interleaving ends the procedure. -/
theorem runScript_ends (v : Variant) (blocks : List (List Byte)) {s : State} (hidle : s.status.busy = false) :
    ∃ turns q t d, runScript turns (.start (procedureScript v blocks)) s = some (q, t) ∧ q.returned v = some d := by
  obtain ⟨hstart, hfalls⟩ := OnProcedure.begin v blocks hidle
  exact hstart.ends _ hidle hfalls (Nat.le_add_left _ _)

/-- Settles O57: a message that fits has the procedure's script, whose runs are those of `OnProcedure`. -/
theorem hashScriptReturnsTheDigest : Obligations.HashScriptReturnsTheDigest := by
  intro v msg s hidle
  refine ⟨hashScript_overflow v, fun hfits => ⟨_, hashScript_ok v ((lengthFits_iff msg).mpr hfits), ?_,
    runScript_ends v _ hidle⟩⟩
  intro turns q t d hrun hd
  exact runScript_returns_digest hidle hrun hd

/-! ## A message in pieces -/

/-- The blocks take all the bytes but those that fill none. -/
theorem fillBlocks_rest_length (buffer bytes : List Byte) : (fillBlocks buffer bytes).2.length < 64 := by
  simp only [fillBlocks, Config.blockBytes, List.length_drop]
  omega

/-- Fewer than 64 buffered bytes and none new fill no block. -/
theorem fillBlocks_nil {buffer : List Byte} (hshort : buffer.length < 64) : fillBlocks buffer [] = ([], buffer) := by
  simp [fillBlocks, Config.blockBytes, Nat.div_eq_of_lt hshort, byteBlocks]

/-- What an update leaves in the buffer fills no block. -/
theorem updateContext_buffer_length {c d : HashContext} {bytes : List Byte} {script : List Stmt}
    (h : updateContext c bytes = .ok (script, d)) : d.buffer.length < 64 := by
  rw [updateContext] at h
  split_ifs at h
  cases h
  exact fillBlocks_rest_length c.buffer bytes

theorem updateContext_nil {c : HashContext} (hopen : c.finalized = false) (hshort : c.buffer.length < 64)
    (hfits : 8 * c.total < 2 ^ 64) : updateContext c [] = .ok ([], c) := by
  have hnot : ¬ 2 ^ Config.lengthFieldBits ≤ 8 * (c.total + ([] : List Byte).length) := by
    simpa [Config.lengthFieldBits] using hfits
  rw [updateContext, if_neg (by simp [hopen]), if_neg hnot, HashContext.present, fillBlocks_nil hshort]
  rfl

/-- Settles O58: the pieces present the whole message's script (`hashInPieces_eq`), so its runs return that message's digest. -/
theorem piecewiseHashingGivesTheSameDigest : Obligations.PiecewiseHashingGivesTheSameDigest := by
  refine ⟨fun v pieces hfits => ?_, fun _ _ _ _ h => updateContext_buffer_length h, fun _ => updateContext_nil⟩
  obtain ⟨c, hfinalized, hpieces⟩ := hashInPieces_eq v pieces hfits
  refine ⟨_, c, hpieces, hfinalized, hashScript_ok v hfits, fun turns s q t d hidle hrun hd => ?_⟩
  exact (runScript_returns_digest hidle hrun hd).1

/-! ## The usage errors -/

/-- Settles O60: each error is the first test of its call that fails. -/
theorem usageErrorsGiveNoDigest : Obligations.UsageErrorsGiveNoDigest := by
  refine ⟨fun v _ => hashScript_overflow v, fun c bytes hopen hlong => ?_, fun c bytes extendable hfinalized => ⟨?_, ?_⟩,
    fun c hopen => ?_, fun name h256 h224 => ?_⟩
  · rw [updateContext, if_neg (by simp [hopen]), Config.lengthFieldBits, if_pos hlong]
  · rw [updateContext, if_pos hfinalized]
  · rw [finalizeContext, if_pos hfinalized]
  · rw [finalizeContext, if_neg (by simp [hopen]), if_pos rfl]
  · rw [newContext, if_neg h256, if_neg h224]

end Sys2Proof.Machine
end
